-- ==== Sys2Proof/Word.lean ====
section
/-! DEFINITION. The plain data types of the core: bytes, opcodes, addresses, register and key numbers (spec 00_scope.md R9, R10). -/

namespace Sys2Proof

/-- An 8-bit value: a general register, a timer, a memory byte (R20, R26, R27, R50). -/
abbrev Byte := BitVec 8

/-- A 16-bit value: an opcode, the container of `pc`, a stack slot (R23, R25, R70). -/
abbrev Word := BitVec 16

/-- A 12-bit address: the address register `I` and the immediate `nnn` (R22, R71). -/
abbrev Addr := BitVec 12

/-- The number of a general register: the fields `x` and `y` (R20, R71). -/
abbrev Reg := Fin 16

/-- The number of a key, 0x0 to 0xF (R193). -/
abbrev Key := Fin 16

/-- The four bits of a register number, as they stand in an opcode (R71). -/
def nibble (r : Reg) : BitVec 4 := BitVec.ofFin r

end Sys2Proof
end

