-- ==== Sys2Proof/Config.lean ====
section
/-! DEFINITION. What an instance of the core is given from outside: its parameters (spec R8, R9) and the transactions of the host with the inputs of a `Step` (R7, R193), with the free values that stand for what the host does where the state names nothing. -/

namespace Sys2Proof

/-- The open parameters of the core, fixed per instance (R8, R9; D15, D16, D28).
They are data of the machine's state that no transaction writes, so a claim about every state is a claim about every
admissible parameter (assumption log 3). -/
structure Params where
  /-- `FONT_BASE`, the address of the first font byte. -/
  fontBase : Nat
  /-- `FONT_DATA`: 16 glyphs of 5 rows, glyph `d` at offset `5*d`. -/
  fontData : Vector Byte 80
  /-- `MEM_INIT`, every byte outside the font after `Reset`. -/
  memInit : Byte
  deriving DecidableEq, Repr

/-- The inputs of one `Step`, answered by the host under no law (R8, R193, R141). -/
structure Inputs where
  /-- `keys`: bit `k` is set when key `k` is held. -/
  keys : BitVec 16
  /-- `key_press`: none, or the number of a key that went down. -/
  keyPress : Option Key
  /-- `rnd`: the random byte. -/
  rnd : Byte
  deriving DecidableEq, Repr, Inhabited

/-- A transaction of the host (R7). -/
inductive Transaction where
  /-- `Step(keys, key_press, rnd)` (R90). -/
  | step (inputs : Inputs)
  /-- `Tick` (R191). -/
  | tick
  /-- `Load(bytes)` (R62). -/
  | load (image : List Byte)
  /-- `Reset` (R230). -/
  | reset
  deriving DecidableEq, Repr, Inhabited

/-- FREE VALUE: the `n`-th transaction the host issues beyond the schedule, of any kind and with any inputs: any unending order
of `Step` and `Tick` is a value of it (R6, R99, R237, D27; assumption log 1). -/
opaque Config.freeTransaction : Nat → Transaction

/-- FREE VALUE: the `keys` of the `Step` that `State.placeWord` schedules at count `n` (R193, D23; assumption logs 2 and 8). -/
opaque Config.freeKeys : Nat → BitVec 16

/-- FREE VALUE: the `key_press` of that `Step` (R193, D23; assumption logs 2 and 8). -/
opaque Config.freeKeyPress : Nat → Option Key

/-- FREE VALUE: the `rnd` of that `Step` (R141, D14; assumption logs 2 and 8). -/
opaque Config.freeRnd : Nat → Byte

/-- The free inputs of that `Step`. -/
def Config.freeInputs (n : Nat) : Inputs :=
  { keys := Config.freeKeys n, keyPress := Config.freeKeyPress n, rnd := Config.freeRnd n }

end Sys2Proof
end

