-- ==== Sys2Proof/Syntax.lean ====
section
/-! DEFINITION. The 34 instructions, one constructor per row of the opcode map (spec 30_encoding.md R75), in the table's order. -/

namespace Sys2Proof

/-- An instruction (R75). `x` and `y` are register numbers, `kk` and `nnn` the unsigned immediates, `n` the sprite height
(R71, R73). The types carry the ranges. `SHR` and `SHL` keep their ignored field `y` (R77), so that no bit of a word is lost
(assumption log 6). -/
inductive Instr where
  /-- `00E0` -/
  | cls
  /-- `00EE` -/
  | ret
  /-- `1nnn` -/
  | jp (nnn : Addr)
  /-- `2nnn` -/
  | call (nnn : Addr)
  /-- `3xkk` -/
  | seImm (x : Reg) (kk : Byte)
  /-- `4xkk` -/
  | sneImm (x : Reg) (kk : Byte)
  /-- `5xy0` -/
  | seReg (x y : Reg)
  /-- `6xkk` -/
  | ldImm (x : Reg) (kk : Byte)
  /-- `7xkk` -/
  | addImm (x : Reg) (kk : Byte)
  /-- `8xy0` -/
  | ldReg (x y : Reg)
  /-- `8xy1` -/
  | or (x y : Reg)
  /-- `8xy2` -/
  | and (x y : Reg)
  /-- `8xy3` -/
  | xor (x y : Reg)
  /-- `8xy4` -/
  | addReg (x y : Reg)
  /-- `8xy5` -/
  | sub (x y : Reg)
  /-- `8xy6` -/
  | shr (x y : Reg)
  /-- `8xy7` -/
  | subn (x y : Reg)
  /-- `8xyE` -/
  | shl (x y : Reg)
  /-- `9xy0` -/
  | sneReg (x y : Reg)
  /-- `Annn` -/
  | ldI (nnn : Addr)
  /-- `Bnnn` -/
  | jpV0 (nnn : Addr)
  /-- `Cxkk` -/
  | rnd (x : Reg) (kk : Byte)
  /-- `Dxyn` -/
  | drw (x y : Reg) (n : Fin 16)
  /-- `Ex9E` -/
  | skp (x : Reg)
  /-- `ExA1` -/
  | sknp (x : Reg)
  /-- `Fx07` -/
  | ldVxDt (x : Reg)
  /-- `Fx0A` -/
  | ldVxK (x : Reg)
  /-- `Fx15` -/
  | ldDtVx (x : Reg)
  /-- `Fx18` -/
  | ldStVx (x : Reg)
  /-- `Fx1E` -/
  | addIVx (x : Reg)
  /-- `Fx29` -/
  | ldFVx (x : Reg)
  /-- `Fx33` -/
  | ldBVx (x : Reg)
  /-- `Fx55` -/
  | ldMemVx (x : Reg)
  /-- `Fx65` -/
  | ldVxMem (x : Reg)
  deriving DecidableEq, Repr

end Sys2Proof
end

