-- ==== Sys2Proof/WellFormed.lean ====
section
/-! DEFINITION. What is well formed before anything runs: a word against the opcode map (spec R72, R75), an instruction's operand bits against its row, the parameters (R9) and a program image (R62). -/

namespace Sys2Proof

/-- One row of the opcode map: a word `w` is this instruction exactly when `w AND mask = pattern` (R72; `match` and `mask` of
the table). -/
structure Row where
  mnemonic : String
  pattern : Word
  mask : Word
  deriving DecidableEq, Repr

/-- The table row of an instruction, copied from R75. -/
def Instr.row : Instr → Row
  | .cls => ⟨"CLS", 0x00E0, 0xFFFF⟩
  | .ret => ⟨"RET", 0x00EE, 0xFFFF⟩
  | .jp _ => ⟨"JP", 0x1000, 0xF000⟩
  | .call _ => ⟨"CALL", 0x2000, 0xF000⟩
  | .seImm _ _ => ⟨"SE_IMM", 0x3000, 0xF000⟩
  | .sneImm _ _ => ⟨"SNE_IMM", 0x4000, 0xF000⟩
  | .seReg _ _ => ⟨"SE_REG", 0x5000, 0xF00F⟩
  | .ldImm _ _ => ⟨"LD_IMM", 0x6000, 0xF000⟩
  | .addImm _ _ => ⟨"ADD_IMM", 0x7000, 0xF000⟩
  | .ldReg _ _ => ⟨"LD_REG", 0x8000, 0xF00F⟩
  | .or _ _ => ⟨"OR", 0x8001, 0xF00F⟩
  | .and _ _ => ⟨"AND", 0x8002, 0xF00F⟩
  | .xor _ _ => ⟨"XOR", 0x8003, 0xF00F⟩
  | .addReg _ _ => ⟨"ADD_REG", 0x8004, 0xF00F⟩
  | .sub _ _ => ⟨"SUB", 0x8005, 0xF00F⟩
  | .shr _ _ => ⟨"SHR", 0x8006, 0xF00F⟩
  | .subn _ _ => ⟨"SUBN", 0x8007, 0xF00F⟩
  | .shl _ _ => ⟨"SHL", 0x800E, 0xF00F⟩
  | .sneReg _ _ => ⟨"SNE_REG", 0x9000, 0xF00F⟩
  | .ldI _ => ⟨"LD_I", 0xA000, 0xF000⟩
  | .jpV0 _ => ⟨"JP_V0", 0xB000, 0xF000⟩
  | .rnd _ _ => ⟨"RND", 0xC000, 0xF000⟩
  | .drw _ _ _ => ⟨"DRW", 0xD000, 0xF000⟩
  | .skp _ => ⟨"SKP", 0xE09E, 0xF0FF⟩
  | .sknp _ => ⟨"SKNP", 0xE0A1, 0xF0FF⟩
  | .ldVxDt _ => ⟨"LD_VX_DT", 0xF007, 0xF0FF⟩
  | .ldVxK _ => ⟨"LD_VX_K", 0xF00A, 0xF0FF⟩
  | .ldDtVx _ => ⟨"LD_DT_VX", 0xF015, 0xF0FF⟩
  | .ldStVx _ => ⟨"LD_ST_VX", 0xF018, 0xF0FF⟩
  | .addIVx _ => ⟨"ADD_I_VX", 0xF01E, 0xF0FF⟩
  | .ldFVx _ => ⟨"LD_F_VX", 0xF029, 0xF0FF⟩
  | .ldBVx _ => ⟨"LD_B_VX", 0xF033, 0xF0FF⟩
  | .ldMemVx _ => ⟨"LD_MEM_VX", 0xF055, 0xF0FF⟩
  | .ldVxMem _ => ⟨"LD_VX_MEM", 0xF065, 0xF0FF⟩

/-- The 34 rows, in the table's order (R75). -/
def opcodeTable : List Row :=
  ([.cls, .ret, .jp 0, .call 0, .seImm 0 0, .sneImm 0 0, .seReg 0 0, .ldImm 0 0, .addImm 0 0] : List Instr).map Instr.row
  ++ ([.ldReg 0 0, .or 0 0, .and 0 0, .xor 0 0, .addReg 0 0, .sub 0 0, .shr 0 0, .subn 0 0, .shl 0 0] : List Instr).map
    Instr.row
  ++ ([.sneReg 0 0, .ldI 0, .jpV0 0, .rnd 0 0, .drw 0 0 0, .skp 0, .sknp 0, .ldVxDt 0, .ldVxK 0] : List Instr).map Instr.row
  ++ ([.ldDtVx 0, .ldStVx 0, .addIVx 0, .ldFVx 0, .ldBVx 0, .ldMemVx 0, .ldVxMem 0] : List Instr).map Instr.row

/-- A word is the instruction of a row (R72). -/
def Row.accepts (r : Row) (w : Word) : Bool := w &&& r.mask == r.pattern

/-- A word is well formed when some row of the opcode map accepts it; the others are the unknown words (R76). -/
def wordWellFormed (w : Word) : Bool := opcodeTable.any (·.accepts w)

/-- The operand fields of an instruction, shifted to their places in the word (R71, R80). -/
def Instr.operandBits : Instr → Word
  | .cls | .ret => 0
  | .jp nnn | .call nnn | .ldI nnn | .jpV0 nnn => nnn.setWidth 16
  | .seImm x kk | .sneImm x kk | .ldImm x kk | .addImm x kk | .rnd x kk =>
    ((nibble x).setWidth 16 <<< 8) ||| kk.setWidth 16
  | .seReg x y | .ldReg x y | .or x y | .and x y | .xor x y | .addReg x y | .sub x y | .shr x y | .subn x y | .shl x y
  | .sneReg x y => ((nibble x).setWidth 16 <<< 8) ||| ((nibble y).setWidth 16 <<< 4)
  | .drw x y n =>
    ((nibble x).setWidth 16 <<< 8) ||| ((nibble y).setWidth 16 <<< 4) ||| (nibble n).setWidth 16
  | .skp x | .sknp x | .ldVxDt x | .ldVxK x | .ldDtVx x | .ldStVx x | .addIVx x | .ldFVx x | .ldBVx x | .ldMemVx x
  | .ldVxMem x => (nibble x).setWidth 16 <<< 8

/-- An instruction is well formed when its operands stay off the fixed bits of its row. The types of the operands carry their
ranges, so every term is (Laws/PerInstr.lean, the family `RoundTrip`). -/
def Instr.wellFormed (i : Instr) : Bool := i.operandBits &&& i.row.mask == 0

/-- The constraint on the parameters: the 80 font bytes lie in the reserved region 0x000..0x1FF (R9, D15). -/
def Params.wellFormed (p : Params) : Bool := decide (p.fontBase + 80 ≤ 0x200)

/-- A program image fits the program region: at most `ROM_MAX` = 3584 bytes (R9, R62, R64). -/
def imageWellFormed (image : List Byte) : Bool := decide (image.length ≤ 4096 - 0x200)

end Sys2Proof
end

