-- ==== Sys2Proof/Decode.lean ====
section
/-! DEFINITION. The decoder, total on any bytes and rejecting by name (spec 30_encoding.md R71, R74, R76), and the encoder (R80). -/

namespace Sys2Proof

/-- Why no instruction was read. -/
inductive DecodeReject where
  /-- The word matches no row of the opcode map (R76). -/
  | unknownOpcode (w : Word)
  /-- Fewer than the two bytes of an instruction were given (R70). -/
  | truncated
  deriving DecidableEq, Repr

namespace Decode

/-- `op[15:12]`, the instruction class (R71). -/
def cls (w : Word) : Nat := (w.extractLsb' 12 4).toNat
/-- `op[11:8]` (R71). -/
def x (w : Word) : Reg := (w.extractLsb' 8 4).toFin
/-- `op[7:4]` (R71). -/
def y (w : Word) : Reg := (w.extractLsb' 4 4).toFin
/-- `op[3:0]` (R71). -/
def n (w : Word) : Fin 16 := (w.extractLsb' 0 4).toFin
/-- `op[7:0]` (R71). -/
def kk (w : Word) : Byte := w.extractLsb' 0 8
/-- `op[11:0]` (R71). -/
def nnn (w : Word) : Addr := w.extractLsb' 0 12

/-- Class 0 is matched on the whole word (R74, D7). -/
def class0 (w : Word) : Except DecodeReject Instr :=
  if w = 0x00E0 then .ok .cls
  else if w = 0x00EE then .ok .ret
  else .error (.unknownOpcode w)

/-- Class 5 requires `n = 0` (R74, D7). -/
def class5 (w : Word) : Except DecodeReject Instr :=
  match (n w).val with
  | 0x0 => .ok (.seReg (x w) (y w))
  | _ => .error (.unknownOpcode w)

/-- Class 8 dispatches on `n` (R74, R75, D8). -/
def class8 (w : Word) : Except DecodeReject Instr :=
  match (n w).val with
  | 0x0 => .ok (.ldReg (x w) (y w))
  | 0x1 => .ok (.or (x w) (y w))
  | 0x2 => .ok (.and (x w) (y w))
  | 0x3 => .ok (.xor (x w) (y w))
  | 0x4 => .ok (.addReg (x w) (y w))
  | 0x5 => .ok (.sub (x w) (y w))
  | 0x6 => .ok (.shr (x w) (y w))
  | 0x7 => .ok (.subn (x w) (y w))
  | 0xE => .ok (.shl (x w) (y w))
  | _ => .error (.unknownOpcode w)

/-- Class 9 requires `n = 0` (R74, D7). -/
def class9 (w : Word) : Except DecodeReject Instr :=
  match (n w).val with
  | 0x0 => .ok (.sneReg (x w) (y w))
  | _ => .error (.unknownOpcode w)

/-- Class E dispatches on `kk` (R74). -/
def classE (w : Word) : Except DecodeReject Instr :=
  if kk w = 0x9E then .ok (.skp (x w))
  else if kk w = 0xA1 then .ok (.sknp (x w))
  else .error (.unknownOpcode w)

/-- Class F dispatches on `kk` (R74). -/
def classF (w : Word) : Except DecodeReject Instr :=
  if kk w = 0x07 then .ok (.ldVxDt (x w))
  else if kk w = 0x0A then .ok (.ldVxK (x w))
  else if kk w = 0x15 then .ok (.ldDtVx (x w))
  else if kk w = 0x18 then .ok (.ldStVx (x w))
  else if kk w = 0x1E then .ok (.addIVx (x w))
  else if kk w = 0x29 then .ok (.ldFVx (x w))
  else if kk w = 0x33 then .ok (.ldBVx (x w))
  else if kk w = 0x55 then .ok (.ldMemVx (x w))
  else if kk w = 0x65 then .ok (.ldVxMem (x w))
  else .error (.unknownOpcode w)

end Decode

/-- The decoding procedure of R74: route on the class, then on `n` or `kk`. A pure function of the word (R78). -/
def decodeWord (w : Word) : Except DecodeReject Instr :=
  match Decode.cls w with
  | 0x0 => Decode.class0 w
  | 0x1 => .ok (.jp (Decode.nnn w))
  | 0x2 => .ok (.call (Decode.nnn w))
  | 0x3 => .ok (.seImm (Decode.x w) (Decode.kk w))
  | 0x4 => .ok (.sneImm (Decode.x w) (Decode.kk w))
  | 0x5 => Decode.class5 w
  | 0x6 => .ok (.ldImm (Decode.x w) (Decode.kk w))
  | 0x7 => .ok (.addImm (Decode.x w) (Decode.kk w))
  | 0x8 => Decode.class8 w
  | 0x9 => Decode.class9 w
  | 0xA => .ok (.ldI (Decode.nnn w))
  | 0xB => .ok (.jpV0 (Decode.nnn w))
  | 0xC => .ok (.rnd (Decode.x w) (Decode.kk w))
  | 0xD => .ok (.drw (Decode.x w) (Decode.y w) (Decode.n w))
  | 0xE => Decode.classE w
  | 0xF => Decode.classF w
  | _ => .error (.unknownOpcode w)

/-- The opcode of two bytes, first byte high: `op = hi : lo` (R55, R91). -/
def wordOfBytes (hi lo : Byte) : Word := hi ++ lo

/-- The two bytes of an opcode as they lie in memory: `op[15:8]` then `op[7:0]` (R70, R80). -/
def bytesOfWord (w : Word) : List Byte := [w.extractLsb' 8 8, w.extractLsb' 0 8]

/-- Decode the first instruction of a byte sequence and return the rest of it. -/
def decodeBytes : List Byte → Except DecodeReject (Instr × List Byte)
  | hi :: lo :: rest =>
    match decodeWord (wordOfBytes hi lo) with
    | .ok i => .ok (i, rest)
    | .error e => .error e
  | _ => .error .truncated

/-! The encoder, one function per format of R72, written from the patterns' digits. -/

namespace Encode

/-- Format NNN, pattern `cnnn`. -/
def fmtNNN (c : BitVec 4) (nnn : Addr) : Word := c ++ nnn
/-- Format XKK, pattern `cxkk`. -/
def fmtXKK (c : BitVec 4) (x : Reg) (kk : Byte) : Word := c ++ nibble x ++ kk
/-- Formats XYN and XYF, pattern `cxyn`, with `n` the height or the sub-opcode. -/
def fmtXYN (c : BitVec 4) (x y : Reg) (n : Fin 16) : Word := c ++ nibble x ++ nibble y ++ nibble n
/-- Format XFF, pattern `cxff`, with `ff` the sub-opcode. -/
def fmtXFF (c : BitVec 4) (x : Reg) (ff : Byte) : Word := c ++ nibble x ++ ff

end Encode

/-- The word of an instruction (R80), from the patterns of R75. -/
def encode : Instr → Word
  | .cls => 0x00E0
  | .ret => 0x00EE
  | .jp nnn => Encode.fmtNNN 0x1 nnn
  | .call nnn => Encode.fmtNNN 0x2 nnn
  | .seImm x kk => Encode.fmtXKK 0x3 x kk
  | .sneImm x kk => Encode.fmtXKK 0x4 x kk
  | .seReg x y => Encode.fmtXYN 0x5 x y 0x0
  | .ldImm x kk => Encode.fmtXKK 0x6 x kk
  | .addImm x kk => Encode.fmtXKK 0x7 x kk
  | .ldReg x y => Encode.fmtXYN 0x8 x y 0x0
  | .or x y => Encode.fmtXYN 0x8 x y 0x1
  | .and x y => Encode.fmtXYN 0x8 x y 0x2
  | .xor x y => Encode.fmtXYN 0x8 x y 0x3
  | .addReg x y => Encode.fmtXYN 0x8 x y 0x4
  | .sub x y => Encode.fmtXYN 0x8 x y 0x5
  | .shr x y => Encode.fmtXYN 0x8 x y 0x6
  | .subn x y => Encode.fmtXYN 0x8 x y 0x7
  | .shl x y => Encode.fmtXYN 0x8 x y 0xE
  | .sneReg x y => Encode.fmtXYN 0x9 x y 0x0
  | .ldI nnn => Encode.fmtNNN 0xA nnn
  | .jpV0 nnn => Encode.fmtNNN 0xB nnn
  | .rnd x kk => Encode.fmtXKK 0xC x kk
  | .drw x y n => Encode.fmtXYN 0xD x y n
  | .skp x => Encode.fmtXFF 0xE x 0x9E
  | .sknp x => Encode.fmtXFF 0xE x 0xA1
  | .ldVxDt x => Encode.fmtXFF 0xF x 0x07
  | .ldVxK x => Encode.fmtXFF 0xF x 0x0A
  | .ldDtVx x => Encode.fmtXFF 0xF x 0x15
  | .ldStVx x => Encode.fmtXFF 0xF x 0x18
  | .addIVx x => Encode.fmtXFF 0xF x 0x1E
  | .ldFVx x => Encode.fmtXFF 0xF x 0x29
  | .ldBVx x => Encode.fmtXFF 0xF x 0x33
  | .ldMemVx x => Encode.fmtXFF 0xF x 0x55
  | .ldVxMem x => Encode.fmtXFF 0xF x 0x65

/-- The two bytes of an instruction as they lie in memory (R80). -/
def encodeBytes (i : Instr) : List Byte := bytesOfWord (encode i)

/-- The word that the table's numbering gives: its low `nbits` bits, the bits above them zero. -/
def tableWord (nbits w : Nat) : Word := BitVec.ofNat 16 (w % 2 ^ nbits)

/-- What the decoder reads from the bytes of a word of the opcode table. -/
def decodeTableWord (nbits w : Nat) : Option Instr :=
  match decodeBytes (bytesOfWord (tableWord nbits w)) with
  | .ok (i, _) => some i
  | .error _ => none

end Sys2Proof
end

