-- ==== Sys2Proof/Machine/Font.lean ====
section
/-! DEFINITION. The default parameters of the core (spec 00_scope.md R9, 92_eei_decisions.md D15, D16, D28), with the font table G1 of 93_implementation_defined.md. -/

namespace Sys2Proof.Machine

/-- The glyphs 0 to 7 of table G1, top row first. -/
def fontLow : List Byte :=
  [0xF0, 0x90, 0x90, 0x90, 0xF0,
   0x20, 0x60, 0x20, 0x20, 0x70,
   0xF0, 0x10, 0xF0, 0x80, 0xF0,
   0xF0, 0x10, 0xF0, 0x10, 0xF0,
   0x90, 0x90, 0xF0, 0x10, 0x10,
   0xF0, 0x80, 0xF0, 0x10, 0xF0,
   0xF0, 0x80, 0xF0, 0x90, 0xF0,
   0xF0, 0x10, 0x20, 0x40, 0x40]

/-- The glyphs 8 to F of table G1, top row first. -/
def fontHigh : List Byte :=
  [0xF0, 0x90, 0xF0, 0x90, 0xF0,
   0xF0, 0x90, 0xF0, 0x10, 0xF0,
   0xF0, 0x90, 0xF0, 0x90, 0x90,
   0xE0, 0x90, 0xE0, 0x90, 0xE0,
   0xF0, 0x80, 0x80, 0x80, 0xF0,
   0xE0, 0x90, 0x90, 0x90, 0xE0,
   0xF0, 0x80, 0xF0, 0x80, 0xF0,
   0xF0, 0x80, 0xF0, 0x80, 0x80]

/-- The default `FONT_DATA`, table G1. PRESUMED: the source has no font bytes, the spec takes them from general knowledge
(assumption log 3). -/
def defaultFontData : Vector Byte 80 := ⟨(fontLow ++ fontHigh).toArray, by decide⟩

/-- The default parameters: `FONT_BASE` = 0x000, `FONT_DATA` = table G1, `MEM_INIT` = 0x00 (R9; assumption log 3). -/
def defaultParams : Params := { fontBase := 0x000, fontData := defaultFontData, memInit := 0x00 }

end Sys2Proof.Machine
end

