-- ==== Sys2Proof/Machine/State.lean ====
section
/-! DEFINITION. The state of the core (spec 10_state.md), the model's own fields for its parameters and ports (R7, R8), and the state after `Reset` (R34). -/

namespace Sys2Proof.Machine

/-- The framebuffer: 32 rows of 64 pixels; bit `x` of row `y` is the pixel `fb[x, y]`, 1 = set (R28, R170). -/
abbrev Framebuffer := Vector (BitVec 64) 32

/-- The memory array as the list of the bytes that differ from the content after `Reset` (R29, R50), in the canonical form
`Memory.wf` of Machine/Memory.lean. -/
abbrev Memory := List Host.Cell

/-- The run mode: what the next `Step` does (R30). -/
inductive Mode where
  /-- The next step fetches and executes an instruction. -/
  | running
  /-- `Fx0A` with `x = r` waits for a key press. -/
  | waitKey (r : Reg)
  /-- A fatal condition was raised; no instruction is executed until `Reset`. -/
  | halted
  deriving DecidableEq, Repr

/-- The two fatal conditions (R200). -/
inductive FatalKind where
  /-- A call with a full stack (R201). -/
  | stackOverflow
  /-- A return with an empty stack (R202). -/
  | stackUnderflow
  deriving DecidableEq, Repr

/-- The fault record: the condition, the opcode that raised it and the address it was fetched from (R31, R208). -/
structure FaultRecord where
  kind : FatalKind
  opcode : Word
  addr : Addr
  deriving DecidableEq, Repr

/-- What a transaction reports to the host, beside the state it leaves (R62, R95, R101). -/
inductive Report where
  /-- `UnknownOpcode(opcode, pc0)` (R95, R203). -/
  | unknownOpcode (opcode : Word) (addr : Addr)
  /-- The result `ok` of `Load` (R62). -/
  | loadOk
  /-- The result `RomTooLarge(len)` of `Load` (R62, R204). -/
  | romTooLarge (len : Nat)
  deriving DecidableEq, Repr

/-- The machine. The fields down to `fault` are the elements of 10_state.md section 1, and R32 says there is no other; the
fields after it are the model's own. -/
structure State where
  /-- `V[0..15]`; `V[15]` is VF, the flag register (R20, R21). -/
  v : Vector Byte 16
  /-- `I`, the address register (R22). -/
  i : Addr
  /-- The program counter, a 16-bit container whose value stays below 4096 (R23). -/
  pc : Word
  /-- The stack pointer, 0 (empty) to 16 (full) (R24). -/
  sp : Fin 17
  /-- The call stack (R25). -/
  stack : Vector Word 16
  /-- `DT`, the delay timer (R26). -/
  dt : Byte
  /-- `ST`, the sound timer (R27). -/
  st : Byte
  /-- The framebuffer (R28). -/
  fb : Framebuffer
  /-- The memory array (R29). -/
  mem : Memory
  /-- The run mode (R30). -/
  mode : Mode
  /-- The fault record (R31). -/
  fault : Option FaultRecord
  /-- The parameters of this instance; no transaction writes them (R8, R9; assumption log 3). -/
  params : Params
  /-- The input lines of the `Step` being executed (R8, R193, R141; assumption log 2). -/
  inputs : Inputs
  /-- The transactions the host will issue next; beyond them its choice is free (R6, R99; assumption log 1). -/
  schedule : List Transaction
  /-- How many free transactions of Config have been drawn (assumption log 1). -/
  freeCount : Nat
  /-- The report of the latest transaction, if it made one (R101; assumption log 4). -/
  report : Option Report
  deriving DecidableEq, Repr

/-- Reasons a step could stop the model with a fault: none. Every condition of the spec leaves a state of the core (R200 to
R208), and nothing else can fail (R205). Nobody raises one, so there is neither a safe nor an unsafe case. -/
inductive Fault where
  deriving DecidableEq, Repr

/-- Reasons a step could be refused. -/
inductive Refusal where
  /-- An instruction that has no meaning in the model, by its mnemonic. Raised by an arm of `exec` that has no meaning yet;
  no arm is left so, nobody raises it. Safe: the model stops where the hardware goes on. -/
  | notModelled (mnemonic : String)
  deriving DecidableEq, Repr

/-- The machine right after `Reset` (R34, R230, R231), with the default parameters (R9), no transaction scheduled and nothing
reported (assumption logs 1 to 4). Memory lists nothing: every byte reads as its content after `Reset`. -/
def State.reset : State where
  v := Vector.replicate 16 0x00
  i := 0x000
  pc := 0x200
  sp := 0
  stack := Vector.replicate 16 0x0000
  dt := 0x00
  st := 0x00
  fb := Vector.replicate 32 0
  mem := []
  mode := .running
  fault := none
  params := defaultParams
  inputs := { keys := 0, keyPress := none, rnd := 0x00 }
  schedule := []
  freeCount := 0
  report := none

end Sys2Proof.Machine
end

