-- ==== Sys2Proof/Machine/Memory.lean ====
section
/-! DEFINITION. The memory array: what an unlisted address reads as, the two primitives on the list of cells, and its canonical form (spec 20_memory.md R50, R51, R63). -/

namespace Sys2Proof.Machine

/-- The content of address `a` after `Reset`: the font bytes from `FONT_BASE` on, `MEM_INIT` elsewhere (R34, R63, R230). It
is what an address that the memory does not list reads as. -/
def memReset (p : Params) (a : Nat) : Byte :=
  if p.fontBase ≤ a then (p.fontData[a - p.fontBase]?).getD p.memInit else p.memInit

namespace Memory

/-- The byte at `a`: the listed one, else the default `d a`. -/
def read (d : Nat → Byte) : Memory → Nat → Byte
  | [], a => d a
  | c :: m, a => if c.1 = a then c.2 else read d m a

/-- The memory without any entry for `a`. -/
def erase (m : Memory) (a : Nat) : Memory := m.filter (fun c => c.1 ≠ a)

/-- The memory with the entry `(a, b)` put before the first higher address. -/
def insert (a : Nat) (b : Byte) : Memory → Memory
  | [] => [(a, b)]
  | c :: m => if a < c.1 then (a, b) :: c :: m else c :: insert a b m

/-- Set the byte at `a`; writing the default value removes the entry, so that equal memories are equal lists. -/
def write (d : Nat → Byte) (m : Memory) (a : Nat) (b : Byte) : Memory :=
  if b = d a then erase m a else insert a b (erase m a)

/-- The canonical form: addresses strictly rising and inside the address space, no entry equal to what its address reads as
unlisted. -/
def wf (d : Nat → Byte) (m : Memory) : Bool :=
  decide (m.Pairwise (fun c c' => c.1 < c'.1)) && m.all (fun c => decide (c.1 < 4096) && decide (c.2 ≠ d c.1))

end Memory

end Sys2Proof.Machine
end

