-- ==== Sys2Proof/Machine/Ops.lean ====
section
/-! DEFINITION. The named operations over the state: registers, memory accesses, `pc`, the call stack, the fetch, and taking a fatal condition (spec 00_scope.md R11; 60_exceptions.md R208). -/

namespace Sys2Proof.Machine

namespace State

/-- `V[r]` (R11, R20). -/
def getV (s : State) (r : Reg) : Byte := s.v[r.val]

/-- `V[r] <- b` (R11, R20). -/
def setV (s : State) (r : Reg) (b : Byte) : State := { s with v := s.v.set r.val b }

/-- The whole register file, as the group transfer of `Fx65` writes it (R20, R155). -/
def setRegs (s : State) (v : Vector Byte 16) : State := { s with v := v }

/-- `I <- a` (R11, R22). -/
def setI (s : State) (a : Addr) : State := { s with i := a }

/-- `DT <- b` (R11, R26). -/
def setDt (s : State) (b : Byte) : State := { s with dt := b }

/-- `ST <- b` (R11, R27). -/
def setSt (s : State) (b : Byte) : State := { s with st := b }

/-- The framebuffer after a clear or a draw (R28). -/
def setFb (s : State) (fb : Framebuffer) : State := { s with fb := fb }

/-- The call stack after a push or a pop: its pointer and its slots (R24, R25). -/
def setStack (s : State) (sp : Fin 17) (stack : Vector Word 16) : State := { s with sp := sp, stack := stack }

/-- `mode <- m` (R11, R30). -/
def setMode (s : State) (m : Mode) : State := { s with mode := m }

/-- `MemRead(addr, 1)`: the byte at `addr mod 4096` (R51, R52). -/
def memRead (s : State) (addr : Nat) : Byte := Memory.read (memReset s.params) s.mem (addr % 4096)

/-- `MemWrite(addr, 1, b)`: sets the byte at `addr mod 4096` (R51, R52). -/
def memWrite (s : State) (addr : Nat) (b : Byte) : State :=
  { s with mem := Memory.write (memReset s.params) s.mem (addr % 4096) b }

/-- One-byte writes of consecutive bytes from `addr` on, in ascending order (R56, R58). -/
def memWriteList (s : State) (addr : Nat) : List Byte → State
  | [] => s
  | b :: bs => memWriteList (s.memWrite addr b) (addr + 1) bs

/-- The `n` consecutive bytes from `addr` on, read in ascending order (R56, R58). -/
def memReadList (s : State) (addr n : Nat) : List Byte := (List.range n).map (fun k => s.memRead (addr + k))

/-- `pc <- target`, reduced `mod 4096` first (R11, R23). -/
def setPc (s : State) (target : Nat) : State := { s with pc := BitVec.ofNat 16 (target % 4096) }

/-- `skip`: `pc <- (pc + 2) mod 4096`, applied to the advanced `pc` (R118). -/
def skip (s : State) : State := s.setPc (s.pc.toNat + 2)

/-- `if c then skip` (41_control_flow.md section 4, 45_timers_keypad.md section 2). -/
def skipIf (s : State) (c : Bool) : State := if c then s.skip else s

/-- The fetch's advance of `pc` by 2, before dispatch (R92). -/
def advance (s : State) : State := s.setPc (s.pc.toNat + 2)

/-- The opcode at `pc`: two one-byte reads, first byte high, second address `mod 4096` (R55, R91). -/
def fetchWord (s : State) : Word := wordOfBytes (s.memRead s.pc.toNat) (s.memRead (s.pc.toNat + 1))

/-- The instruction address `pc0` of a state whose `pc` is the advanced one: two below it, `mod 4096` (R92). -/
def instrAddr (s : State) : Addr := s.pc.setWidth 12 - 2

/-- Push: write `stack[sp]`, then increment `sp`; nothing when the stack is full (R25, R112). -/
def push (s : State) (w : Word) : Option State :=
  if h : s.sp.val < 16 then
    some (s.setStack ⟨s.sp.val + 1, by omega⟩ (s.stack.set s.sp.val w))
  else none

/-- Pop: decrement `sp`, then read `stack[sp]`; the slot keeps its content; nothing when the stack is empty (R25, R110). -/
def pop (s : State) : Option (Word × State) :=
  if h : 0 < s.sp.val then
    some (s.stack[s.sp.val - 1], s.setStack ⟨s.sp.val - 1, by omega⟩ s.stack)
  else none

/-- TAKING A FATAL CONDITION: `fault <- (kind, opcode, pc0)`, `mode <- HALTED`, and no other write; `pc` stays at the advanced
value. There is no handler and no vector (R208). THE RETURN FROM IT does not exist: no instruction leaves `HALTED` (R210), only
`Reset` does (R209, R230; `State.resetCore` in Machine/Cycle.lean). -/
def raiseFatal (s : State) (kind : FatalKind) (opcode : Word) : State :=
  { s with fault := some { kind := kind, opcode := opcode, addr := s.instrAddr }, mode := .halted }

/-- The output `sound_on`: 1 exactly when the sound timer is nonzero (R192). -/
def soundOn (s : State) : Bool := s.st != 0

end State

end Sys2Proof.Machine
end

