-- ==== Sys2Proof/Machine/Flags.lean ====
section
/-! DEFINITION. The flag computations: every value VF is given as a flag, always 0x00 or 0x01 (spec 10_state.md R21), and the order of the flag write (R143). -/

namespace Sys2Proof.Machine

/-- VF, register 15 (R21). -/
def vf : Reg := 15

/-- A flag as the byte VF holds: 0x00 or 0x01 (R21). -/
def flagByte (c : Bool) : Byte := if c then 0x01 else 0x00

/-- The carry of `8xy4`: the sum exceeds 255 (R136). -/
def carryFlag (a b : Byte) : Bool := decide (a.toNat + b.toNat > 255)

/-- The flag of the subtractions: strictly greater, unsigned (R137, R139, R142, D11). -/
def greaterFlag (a b : Byte) : Bool := decide (a.toNat > b.toNat)

/-- The bit a right shift loses (R138). -/
def lowBitFlag (a : Byte) : Bool := a.getLsbD 0

/-- The bit a left shift loses (R140). -/
def highBitFlag (a : Byte) : Bool := a.getLsbD 7

/-- Write the result to `V[x]`, then the flag to VF: the flag is what stays when `x` is 15 (R143, D10). -/
def State.setResultFlag (s : State) (x : Reg) (result : Byte) (flag : Bool) : State :=
  (s.setV x result).setV vf (flagByte flag)

end Sys2Proof.Machine
end

