-- ==== Sys2Proof/Machine/Alu.lean ====
section
/-! DEFINITION. Register load, arithmetic, logic, shifts and random (spec 42_alu.md). None of them writes `pc`, memory, the stack, a timer or a pixel. -/

namespace Sys2Proof.Machine

/-- `6xkk` LD Vx, byte (R130). -/
def execLdImm (x : Reg) (kk : Byte) (s : State) : Host.Outcome State Fault Refusal :=
  .next (s.setV x kk)

/-- `7xkk` ADD Vx, byte: no flag (R131). -/
def execAddImm (x : Reg) (kk : Byte) (s : State) : Host.Outcome State Fault Refusal :=
  .next (s.setV x (s.getV x + kk))

/-- `8xy0` LD Vx, Vy (R132). -/
def execLdReg (x y : Reg) (s : State) : Host.Outcome State Fault Refusal :=
  .next (s.setV x (s.getV y))

/-- `8xy1` OR Vx, Vy: VF unchanged (R133, D12). -/
def execOr (x y : Reg) (s : State) : Host.Outcome State Fault Refusal :=
  .next (s.setV x (s.getV x ||| s.getV y))

/-- `8xy2` AND Vx, Vy: VF unchanged (R134, D12). -/
def execAnd (x y : Reg) (s : State) : Host.Outcome State Fault Refusal :=
  .next (s.setV x (s.getV x &&& s.getV y))

/-- `8xy3` XOR Vx, Vy: VF unchanged (R135, D12). -/
def execXor (x y : Reg) (s : State) : Host.Outcome State Fault Refusal :=
  .next (s.setV x (s.getV x ^^^ s.getV y))

/-- `8xy4` ADD Vx, Vy, VF = carry (R136, R143). -/
def execAddReg (x y : Reg) (s : State) : Host.Outcome State Fault Refusal :=
  .next (s.setResultFlag x (s.getV x + s.getV y) (carryFlag (s.getV x) (s.getV y)))

/-- `8xy5` SUB Vx, Vy, VF = (Vx > Vy) (R137, R143). -/
def execSub (x y : Reg) (s : State) : Host.Outcome State Fault Refusal :=
  .next (s.setResultFlag x (s.getV x - s.getV y) (greaterFlag (s.getV x) (s.getV y)))

/-- `8xy6` SHR Vx, VF = old bit 0; the field `y` is ignored (R138, R143, D9). -/
def execShr (x _y : Reg) (s : State) : Host.Outcome State Fault Refusal :=
  .next (s.setResultFlag x (s.getV x >>> 1) (lowBitFlag (s.getV x)))

/-- `8xy7` SUBN Vx, Vy, VF = (Vy > Vx) (R139, R143). -/
def execSubn (x y : Reg) (s : State) : Host.Outcome State Fault Refusal :=
  .next (s.setResultFlag x (s.getV y - s.getV x) (greaterFlag (s.getV y) (s.getV x)))

/-- `8xyE` SHL Vx, VF = old bit 7; the field `y` is ignored (R140, R143, D9). -/
def execShl (x _y : Reg) (s : State) : Host.Outcome State Fault Refusal :=
  .next (s.setResultFlag x (s.getV x <<< 1) (highBitFlag (s.getV x)))

/-- `Cxkk` RND Vx, byte: the random byte is an input of the step (R141, D14). -/
def execRnd (x : Reg) (kk : Byte) (s : State) : Host.Outcome State Fault Refusal :=
  .next (s.setV x (s.inputs.rnd &&& kk))

end Sys2Proof.Machine
end

