-- ==== Sys2Proof/Machine/Operands.lean ====
section
/-! DEFINITION. The operand forms that are more than a register or an immediate: element addresses, glyph addresses, the key number, decimal digits, sprite coordinates (spec R152, R153, R156, R172, R185). -/

namespace Sys2Proof.Machine

namespace State

/-- `EA(k) = (I + k) mod 4096`, the address of element `k` of a transfer (R156). -/
def elementAddr (s : State) (k : Nat) : Nat := (s.i.toNat + k) % 4096

/-- The address of the glyph that the value `b` names: `(FONT_BASE + 5 * b) mod 4096`, all 8 bits of `b` used (R152, D15). -/
def glyphAddr (s : State) (b : Byte) : Addr := BitVec.ofNat 12 (s.params.fontBase + 5 * b.toNat)

/-- The key that the value `b` names is held: key number `b[3:0]` (R185, D21). -/
def keyHeld (s : State) (b : Byte) : Bool := s.inputs.keys.getLsbD (b.toNat % 16)

/-- The registers `V0` to `Vx` (R154). -/
def regsUpTo (s : State) (x : Reg) : List Byte := s.v.toList.take (x.val + 1)

end State

/-- The three decimal digits of a byte, hundreds first, one to a byte (R153). -/
def bcdDigits (b : Byte) : List Byte :=
  [BitVec.ofNat 8 (b.toNat / 100), BitVec.ofNat 8 (b.toNat / 10 % 10), BitVec.ofNat 8 (b.toNat % 10)]

/-- The column `(base + k) mod 64` (R172). -/
def column (base k : Nat) : Fin 64 := ⟨(base + k) % 64, by omega⟩

/-- The row `(base + k) mod 32` (R172). -/
def row (base k : Nat) : Fin 32 := ⟨(base + k) % 32, by omega⟩

end Sys2Proof.Machine
end

