-- ==== Sys2Proof/Machine/Display.lean ====
section
/-! DEFINITION. The framebuffer and the two instructions that touch it (spec 44_display.md). -/

namespace Sys2Proof.Machine

namespace Framebuffer

/-- `fb[x, y]` (R28, R170). -/
def pixel (fb : Framebuffer) (x : Fin 64) (y : Fin 32) : Bool := (fb[y.val]).getLsbD x.val

/-- `fb[x, y] <- fb[x, y] ^ 1` (R172). -/
def toggle (fb : Framebuffer) (x : Fin 64) (y : Fin 32) : Framebuffer :=
  fb.set y.val (fb[y.val] ^^^ ((1 : BitVec 64) <<< x.val))

/-- All pixels 0 (R171). -/
def blank : Framebuffer := Vector.replicate 32 0

end Framebuffer

/-- The framebuffer read of the display collaborator: one pixel of it (R174). -/
def State.pixel (s : State) (x : Fin 64) (y : Fin 32) : Bool := Framebuffer.pixel s.fb x y

/-- What a draw carries along: the framebuffer, and whether a set pixel was turned off (R172, R173). -/
abbrev Canvas := Framebuffer × Bool

/-- XOR one pixel with 1; a pixel that was 1 is a collision (R172, R173). -/
def Canvas.plot (c : Canvas) (px : Fin 64) (py : Fin 32) : Canvas :=
  (Framebuffer.toggle c.1 px py, c.2 || Framebuffer.pixel c.1 px py)

/-- Draw the sprite byte `b` as row `r` of the sprite: for each column, most significant bit first, a set bit plots its pixel
(R172). -/
def Canvas.plotByte (c : Canvas) (xc yc r : Nat) (b : Byte) : Canvas :=
  (List.range 8).foldl
    (fun c col => if b.getLsbD (7 - col) then Canvas.plot c (column xc col) (row yc r) else c) c

/-- Draw the sprite bytes as rows `r`, `r + 1`, ... (R172). -/
def Canvas.plotRows (xc yc : Nat) : Nat → List Byte → Canvas → Canvas
  | _, [], c => c
  | r, b :: bs, c => Canvas.plotRows xc yc (r + 1) bs (Canvas.plotByte c xc yc r b)

/-- `00E0` CLS: VF is not written (R171). -/
def execCls (s : State) : Host.Outcome State Fault Refusal :=
  .next (s.setFb Framebuffer.blank)

/-- `Dxyn` DRW Vx, Vy, nibble: the coordinates and the sprite bytes are read first, VF is written last and always
(R172, R173, D19). -/
def execDrw (x y : Reg) (n : Fin 16) (s : State) : Host.Outcome State Fault Refusal :=
  let xc := (s.getV x).toNat % 64
  let yc := (s.getV y).toNat % 32
  let c := Canvas.plotRows xc yc 0 (s.memReadList (s.elementAddr 0) n.val) (s.fb, false)
  .next ((s.setFb c.1).setV vf (flagByte c.2))

end Sys2Proof.Machine
end

