-- ==== Sys2Proof/Machine/Index.lean ====
section
/-! DEFINITION. The address register and the memory transfers (spec 43_index_memory.md). None of them writes VF as a flag, and the transfers leave `I` as it is (R156, D17). -/

namespace Sys2Proof.Machine

/-- `Annn` LD I, addr (R150). -/
def execLdI (nnn : Addr) (s : State) : Host.Outcome State Fault Refusal :=
  .next (s.setI nnn)

/-- `Fx1E` ADD I, Vx, `mod 4096`, no flag (R151). -/
def execAddIVx (x : Reg) (s : State) : Host.Outcome State Fault Refusal :=
  .next (s.setI (s.i + (s.getV x).setWidth 12))

/-- `Fx29` LD F, Vx (R152, D15). -/
def execLdFVx (x : Reg) (s : State) : Host.Outcome State Fault Refusal :=
  .next (s.setI (s.glyphAddr (s.getV x)))

/-- `Fx33` LD B, Vx: the three decimal digits at `I`, `I+1`, `I+2` (R153, D18). -/
def execLdBVx (x : Reg) (s : State) : Host.Outcome State Fault Refusal :=
  .next (s.memWriteList (s.elementAddr 0) (bcdDigits (s.getV x)))

/-- `Fx55` LD [I], Vx: `V0` to `Vx` at `I` on, ascending (R154, D17). -/
def execLdMemVx (x : Reg) (s : State) : Host.Outcome State Fault Refusal :=
  .next (s.memWriteList (s.elementAddr 0) (s.regsUpTo x))

/-- `Fx65` LD Vx, [I]: register `r` of `V0` to `Vx` gets the byte at `EA(r)`, the others stay (R155, D17). -/
def execLdVxMem (x : Reg) (s : State) : Host.Outcome State Fault Refusal :=
  .next (s.setRegs (Vector.ofFn fun r : Reg => if r ≤ x then s.memRead (s.elementAddr r.val) else s.getV r))

end Sys2Proof.Machine
end

