-- ==== Sys2Proof/Machine/Timers.lean ====
section
/-! DEFINITION. The keypad and timer instructions and the timer countdown (spec 45_timers_keypad.md). -/

namespace Sys2Proof.Machine

/-- `Ex9E` SKP Vx: skip if the key is held (R185, D21). -/
def execSkp (x : Reg) (s : State) : Host.Outcome State Fault Refusal :=
  .next (s.skipIf (s.keyHeld (s.getV x)))

/-- `ExA1` SKNP Vx: skip if the key is not held (R186, D21). -/
def execSknp (x : Reg) (s : State) : Host.Outcome State Fault Refusal :=
  .next (s.skipIf (!s.keyHeld (s.getV x)))

/-- `Fx0A` LD Vx, K: its own step only enters the wait (R187, D22); `State.waitStep` ends it. -/
def execLdVxK (x : Reg) (s : State) : Host.Outcome State Fault Refusal :=
  .next (s.setMode (.waitKey x))

/-- A wait-step: a key press is stored in the latched register and ends the wait; without one nothing changes (R97). -/
def State.waitStep (s : State) (r : Reg) : State :=
  match s.inputs.keyPress with
  | some k => (s.setV r (BitVec.ofNat 8 k.val)).setMode .running
  | none => s

/-- `Fx07` LD Vx, DT (R188). -/
def execLdVxDt (x : Reg) (s : State) : Host.Outcome State Fault Refusal :=
  .next (s.setV x s.dt)

/-- `Fx15` LD DT, Vx (R189). -/
def execLdDtVx (x : Reg) (s : State) : Host.Outcome State Fault Refusal :=
  .next (s.setDt (s.getV x))

/-- `Fx18` LD ST, Vx (R190). -/
def execLdStVx (x : Reg) (s : State) : Host.Outcome State Fault Refusal :=
  .next (s.setSt (s.getV x))

/-- One timer at one tick: down by 1, and 0 stays 0 (R191). -/
def countDown (t : Byte) : Byte := if t.toNat > 0 then t - 1 else t

/-- `Tick`: both timers count down, nothing else changes, in every mode (R191, D27). -/
def State.tick (s : State) : State := (s.setDt (countDown s.dt)).setSt (countDown s.st)

end Sys2Proof.Machine
end

