-- ==== Sys2Proof/Machine/Cycle.lean ====
section
/-! DEFINITION. The four transactions: `Step` in each mode, `Tick`, `Load`, `Reset` (spec 40_cycle.md R90 to R98, 20_memory.md R62, 70_reset_and_hazards.md R230). -/

namespace Sys2Proof.Machine

namespace State

/-- The next transaction of the schedule, and the state without it. Beyond the schedule the host may issue any transaction, in
an order under no law (R6, R99, R237): a free one (assumption log 1). -/
def takeTransaction (s : State) : Transaction × State :=
  match s.schedule with
  | [] => (Config.freeTransaction s.freeCount, { s with freeCount := s.freeCount + 1 })
  | t :: rest => (t, { s with schedule := rest })

/-- The input lines of a `Step` take the given values, and no report is pending (R90, R101). -/
def present (s : State) (inputs : Inputs) : State := { s with inputs := inputs, report := none }

/-- The report line of a transaction (R101). -/
def setReport (s : State) (r : Option Report) : State := { s with report := r }

/-- What an unknown word does, after the advance: one report, nothing else (R95, R203). -/
def reportUnknown (s : State) (w : Word) : State := s.setReport (some (.unknownOpcode w s.instrAddr))

/-- A step in `RUNNING`: fetch, advance, decode, then execute or report (R90 to R95). -/
def runInstruction (s : State) : Host.Outcome State Fault Refusal :=
  match decodeWord s.fetchWord with
  | .ok i => exec i s.advance
  | .error _ => .next (s.advance.reportUnknown s.fetchWord)

/-- `Step`, with its inputs presented: what it does depends on the mode (R90); in `HALTED` nothing (R98). -/
def coreStep (s : State) : Host.Outcome State Fault Refusal :=
  match s.mode with
  | .halted => .next s
  | .waitKey r => .next (s.waitStep r)
  | .running => s.runInstruction

/-- `Load(bytes)`: the bound check first, then the bytes from 0x200 on; the result is reported (R62, R204, D29). -/
def load (s : State) (image : List Byte) : State :=
  if imageWellFormed image then (s.memWriteList 0x200 image).setReport (some .loadOk)
  else s.setReport (some (.romTooLarge image.length))

/-- `Reset`: every element of the core to its value of R34, whatever it was, in any mode; the parameters and the host's side
stay (R230). -/
def resetCore (s : State) : State :=
  { State.reset with
    params := s.params, inputs := s.inputs, schedule := s.schedule, freeCount := s.freeCount }

/-- One transaction (R7). -/
def transact (s : State) : Transaction → Host.Outcome State Fault Refusal
  | .step inputs => (s.present inputs).coreStep
  | .tick => .next (s.tick.setReport none)
  | .load image => .next (s.load image)
  | .reset => .next s.resetCore

/-- The schedule from its first `Step` on; a `Step` on the given inputs where it has none. -/
def fromFirstStep (inputs : Inputs) : List Transaction → List Transaction
  | [] => [.step inputs]
  | .step inputs' :: rest => .step inputs' :: rest
  | _ :: rest => fromFirstStep inputs rest

/-- The state with the word `w` at `pc`, ready to run it as the next transaction: in `RUNNING` with no fault recorded, and a
`Step` next, on free inputs where the schedule has none (assumption log 8). -/
def placeWord (s : State) (w : Word) : State :=
  { s.memWriteList s.pc.toNat (bytesOfWord w) with
    mode := .running, fault := none, schedule := fromFirstStep (Config.freeInputs s.freeCount) s.schedule }

end State

end Sys2Proof.Machine
end

