-- ==== Sys2Proof/Machine/Step.lean ====
section
/-! DEFINITION. One step of the machine: one whole transaction, the one the schedule names next (spec 00_scope.md R6, R7; 40_cycle.md R96). -/

namespace Sys2Proof.Machine

/-- One step: take the next transaction and perform it. -/
def step (s : State) : Host.Outcome State Fault Refusal :=
  s.takeTransaction.2.transact s.takeTransaction.1

/-- The state with the instruction of a table word stored where `step` fetches its next instruction (assumption log 8). -/
def State.withFetchWord (s : State) (nbits w : Nat) : State := s.placeWord (tableWord nbits w)

end Sys2Proof.Machine
end

