-- ==== Sys2Proof/Safety.lean ====
section
/-! DEFINITION. The terms that claims use: the invariant of the machine, "only these elements change", which elements an instruction may write (spec 10_state.md section 1), and the pixels a sprite covers (R172). -/

namespace Sys2Proof.Machine

/-- The invariant of the machine: the font lies in the reserved region (R9), memory is in its canonical form, `pc` and every
stack slot hold a 12-bit address (R23, R25), and the machine is halted exactly when a fault is recorded (R31). -/
structure State.Inv (s : State) : Prop where
  params_wf : s.params.wellFormed = true
  mem_wf : Memory.wf (memReset s.params) s.mem = true
  pc_lt : s.pc.toNat < 4096
  slot_lt : ∀ j : Fin 16, s.stack[j.val].toNat < 4096
  halted_iff : s.mode = .halted ↔ s.fault ≠ none

/-- A state of a run that is safe: no fatal condition has been raised (R210). -/
def State.safe (s : State) : Prop := s.mode ≠ .halted ∧ s.fault = none

/-- The elements of the state (10_state.md section 1), one register, slot, pixel or byte each, and the model's own fields. -/
inductive Elem where
  /-- `V[r]` -/
  | reg (r : Reg)
  /-- `I` -/
  | addrReg
  | pc
  | sp
  /-- `stack[j]` -/
  | slot (j : Fin 16)
  | dt
  | st
  /-- `fb[x, y]` -/
  | pixel (x : Fin 64) (y : Fin 32)
  /-- `mem[a]`, for `a` below 4096 -/
  | byte (a : Nat)
  | mode
  | fault
  | params
  | inputs
  /-- the schedule and the count of free transactions -/
  | schedule
  | report
  deriving DecidableEq, Repr

/-- An element has the same value in both states; a byte is compared through the read of one byte. -/
def Same (s t : State) : Elem → Prop
  | .reg r => t.getV r = s.getV r
  | .addrReg => t.i = s.i
  | .pc => t.pc = s.pc
  | .sp => t.sp = s.sp
  | .slot j => t.stack[j.val] = s.stack[j.val]
  | .dt => t.dt = s.dt
  | .st => t.st = s.st
  | .pixel x y => t.pixel x y = s.pixel x y
  | .byte a => a < 4096 → t.memRead a = s.memRead a
  | .mode => t.mode = s.mode
  | .fault => t.fault = s.fault
  | .params => t.params = s.params
  | .inputs => t.inputs = s.inputs
  | .schedule => t.schedule = s.schedule ∧ t.freeCount = s.freeCount
  | .report => t.report = s.report

/-- From `s` to `t`, every element outside `changed` stays as it was. -/
def OnlyChanges (s t : State) (changed : Elem → Prop) : Prop := ∀ e, ¬ changed e → Same s t e

/-- The instruction writes register `r`: its destination, the registers `V0` to `Vx` of `Fx65`, or VF as its flag (R20, R21).
`Fx0A` writes its register only in a later wait-step (R187). -/
def writesReg (r : Reg) : Instr → Bool
  | .ldImm x _ | .addImm x _ | .ldReg x _ | .or x _ | .and x _ | .xor x _ | .rnd x _ | .ldVxDt x => r = x
  | .addReg x _ | .sub x _ | .shr x _ | .subn x _ | .shl x _ => r = x || r = vf
  | .drw _ _ _ => r = vf
  | .ldVxMem x => r ≤ x
  | .cls | .ret | .jp _ | .call _ | .seImm _ _ | .sneImm _ _ | .seReg _ _ | .sneReg _ _ | .ldI _ | .jpV0 _ | .skp _
  | .sknp _ | .ldVxK _ | .ldDtVx _ | .ldStVx _ | .addIVx _ | .ldFVx _ | .ldBVx _ | .ldMemVx _ => false

/-- The instruction may leave `pc` at another value than the advanced one (the table of R23). -/
def writesPc : Instr → Bool
  | .ret | .jp _ | .call _ | .seImm _ _ | .sneImm _ _ | .seReg _ _ | .sneReg _ _ | .jpV0 _ | .skp _ | .sknp _ => true
  | .cls | .ldImm _ _ | .addImm _ _ | .ldReg _ _ | .or _ _ | .and _ _ | .xor _ _ | .addReg _ _ | .sub _ _ | .shr _ _
  | .subn _ _ | .shl _ _ | .ldI _ | .rnd _ _ | .drw _ _ _ | .ldVxDt _ | .ldVxK _ | .ldDtVx _ | .ldStVx _ | .addIVx _
  | .ldFVx _ | .ldBVx _ | .ldMemVx _ | .ldVxMem _ => false

/-- The sprite of `n` rows at `I`, drawn with its origin at column `xc` and row `yc`, has a set bit at the pixel: row `r` of the
sprite is the byte at `EA(r)`, its column 0 is bit 7, and both coordinates wrap (R156, R172). -/
def spriteSets (s : State) (xc yc n : Nat) (px : Fin 64) (py : Fin 32) : Prop :=
  ∃ r < n, ∃ col < 8, (s.memRead (s.elementAddr r)).getLsbD (7 - col) = true ∧
    px.val = (xc + col) % 64 ∧ py.val = (yc + r) % 32

/-- The instruction stores to address `a` from the state `s`: the three digits of `Fx33` at `EA(0)` to `EA(2)`, the registers of
`Fx55` at `EA(0)` to `EA(x)` (R153, R154, R156). -/
def storesTo (s : State) (i : Instr) (a : Nat) : Prop :=
  (∃ x, i = .ldBVx x ∧ ∃ k < 3, a = s.elementAddr k) ∨
  (∃ x, i = .ldMemVx x ∧ ∃ k ≤ x.val, a = s.elementAddr k)

/-- The instruction changes the pixel from the state `s`: any pixel for `00E0`, a pixel under a set bit of the sprite for `Dxyn`
(R171, R172). -/
def drawsTo (s : State) (i : Instr) (px : Fin 64) (py : Fin 32) : Prop :=
  i = .cls ∨ ∃ x y n, i = .drw x y n ∧ spriteSets s ((s.getV x).toNat % 64) ((s.getV y).toNat % 32) n.val px py

/-- Which elements an instruction may write from the state `s`: the column "written by" of 10_state.md section 1, beside the
fetch's advance. -/
def mayWrite (s : State) (i : Instr) : Elem → Prop
  | .reg r => writesReg r i = true
  | .addrReg => i.row.mnemonic ∈ ["LD_I", "ADD_I_VX", "LD_F_VX"]
  | .pc => writesPc i = true
  | .sp => i.row.mnemonic ∈ ["CALL", "RET"]
  | .slot j => (∃ nnn, i = .call nnn) ∧ j.val = s.sp.val
  | .dt => i.row.mnemonic = "LD_DT_VX"
  | .st => i.row.mnemonic = "LD_ST_VX"
  | .pixel px py => drawsTo s i px py
  | .byte a => storesTo s i a
  | .mode => i.row.mnemonic ∈ ["LD_VX_K", "CALL", "RET"]
  | .fault => i.row.mnemonic ∈ ["CALL", "RET"]
  | .params | .inputs | .schedule | .report => False

/-- Execute a list of instructions one after the other, without the fetches between them. -/
def execAll : List Instr → State → Host.Outcome State Fault Refusal
  | [], s => .next s
  | i :: is, s =>
    match exec i s with
    | .next t => execAll is t
    | o => o

end Sys2Proof.Machine
end

