-- ==== Sys2Proof/Certificates/Slice0/Obligations.lean ====
section
/-! DEFINITION. The statements about the core, from the numbered rules of spec/. `D<n>` in a docstring names a decision of 92_eei_decisions.md, that is a choice of the spec's own on which a clause rests; "log <n>" an entry of notes/assumptions/. Instructions act on the state after the fetch, whose `pc` is the advanced one (R92, R94). -/

open Sys2Proof Sys2Proof.Machine

/-! ### Encoding (30_encoding.md) -/

/-- R74, R80: decoding the word, or the two bytes, of any instruction gives it back, with every operand at every value. -/
def Obligations.DecodeOfEncodeIsIdentity : Prop :=
  ∀ (i : Instr) (rest : List Byte),
    decodeWord (encode i) = .ok i ∧ decodeBytes (encodeBytes i ++ rest) = .ok (i, rest)

/-- R74: a word has one meaning: the instruction decoded from a word encodes to that very word (`y` of the shifts kept, log 6). -/
def Obligations.EncodeOfDecodeIsIdentity : Prop :=
  ∀ (w : Word) (i : Instr), decodeWord w = .ok i → encode i = w

/-- R72, R74, R75: a word decodes to the instruction of a row exactly when it matches the row's fixed bits, and a word that
matches no row is rejected by its own value. -/
def Obligations.DecoderAgreesWithOpcodeTable : Prop :=
  ∀ w : Word,
    (∀ i, decodeWord w = .ok i → i.row ∈ opcodeTable ∧ w &&& i.row.mask = i.row.pattern) ∧
    (∀ r ∈ opcodeTable, w &&& r.mask = r.pattern → ∃ i, decodeWord w = .ok i ∧ i.row = r) ∧
    ((∀ r ∈ opcodeTable, w &&& r.mask ≠ r.pattern) → decodeWord w = .error (.unknownOpcode w))

/-- R76 (with D7, D8): the unknown words, class by class. -/
def Obligations.UnknownWordsByClass : Prop :=
  ∀ w : Word,
    decodeWord w = .error (.unknownOpcode w) ↔
      (w.toNat < 0x1000 ∧ w ≠ 0x00E0 ∧ w ≠ 0x00EE) ∨
      ((w.toNat / 0x1000 = 0x5 ∨ w.toNat / 0x1000 = 0x9) ∧ w.toNat % 16 ≠ 0) ∨
      (w.toNat / 0x1000 = 0x8 ∧ w.toNat % 16 ∈ [0x8, 0x9, 0xA, 0xB, 0xC, 0xD, 0xF]) ∨
      (w.toNat / 0x1000 = 0xE ∧ w.toNat % 256 ∉ [0x9E, 0xA1]) ∨
      (w.toNat / 0x1000 = 0xF ∧ w.toNat % 256 ∉ [0x07, 0x0A, 0x15, 0x18, 0x1E, 0x29, 0x33, 0x55, 0x65])

/-- R80 (the sub-opcodes of class 8 as D8 has them): the word of an instruction is the pattern of its row with the operand
fields shifted into place. -/
def Obligations.EncodingIsPatternWithOperandFields : Prop :=
  ∀ i : Instr, encode i = i.row.pattern ||| i.operandBits

/-- R71, R75: words written out from the spec's patterns decode to the instructions they stand for, and three neighbours of
them are unknown (D7, D8). -/
def Obligations.SampleWordsDecode : Prop :=
  decodeWord 0b0001101010111100 = .ok (.jp 0xABC) ∧ decodeWord 0b1000101010110100 = .ok (.addReg 0xA 0xB) ∧
  decodeWord 0b1101000100101111 = .ok (.drw 1 2 15) ∧ decodeWord 0b1111000101100101 = .ok (.ldVxMem 1) ∧
  decodeWord 0b1110000110011110 = .ok (.skp 1) ∧ decodeWord 0b1100001110100111 = .ok (.rnd 3 0xA7) ∧
  decodeWord 0x01E0 = .error (.unknownOpcode 0x01E0) ∧ decodeWord 0x8AB8 = .error (.unknownOpcode 0x8AB8) ∧
  decodeWord 0x5121 = .error (.unknownOpcode 0x5121)

/-! ### The step (40_cycle.md) -/

/-- R90 to R94: when the next transaction is a `Step` in `RUNNING` and the two bytes at `pc` and `pc + 1` (mod 4096, D4), first
byte high, are the word of an instruction, the step is that instruction's meaning on the state with the inputs presented,
nothing reported and `pc` advanced by 2 (mod 4096, D2). The schedule is the model's own (log 1). -/
def Obligations.StepExecutesDecodedInstruction : Prop :=
  ∀ (s s₁ : State) (inp : Inputs) (i : Instr),
    s.takeTransaction = (.step inp, s₁) → s.mode = .running →
    decodeWord (s.memRead s.pc.toNat ++ s.memRead (s.pc.toNat + 1)) = .ok i →
    step s = exec i { s₁ with inputs := inp, report := none, pc := BitVec.ofNat 16 ((s.pc.toNat + 2) % 4096) }

/-- R95, R203 (with D2, D26): an unknown word advances `pc`, reports the word and its address, and changes nothing else. -/
def Obligations.UnknownOpcodeIsReportedAndSkipped : Prop :=
  ∀ (s s₁ : State) (inp : Inputs) (w : Word),
    s.takeTransaction = (.step inp, s₁) → s.mode = .running →
    s.memRead s.pc.toNat ++ s.memRead (s.pc.toNat + 1) = w → (∀ i, decodeWord w ≠ .ok i) →
    step s = .next { s₁ with
      inputs := inp, pc := BitVec.ofNat 16 ((s.pc.toNat + 2) % 4096)
      report := some (.unknownOpcode w (BitVec.ofNat 12 s.pc.toNat)) }

/-- R98 (D35): in `HALTED` a `Step` changes nothing of the core and reports nothing. -/
def Obligations.StepInHaltedChangesNothing : Prop :=
  ∀ (s s₁ : State) (inp : Inputs),
    s.takeTransaction = (.step inp, s₁) → s.mode = .halted → step s = .next { s₁ with inputs := inp, report := none }

/-- R97 (D22): a wait-step without a key press changes nothing of the core; with one it stores the key number in the latched
register, returns to `RUNNING`, and changes nothing else, `pc` included. -/
def Obligations.WaitStepConsumesKeyPress : Prop :=
  ∀ (s s₁ : State) (inp : Inputs) (r : Reg),
    s.takeTransaction = (.step inp, s₁) → s.mode = .waitKey r →
    (inp.keyPress = none → step s = .next { s₁ with inputs := inp, report := none }) ∧
    (∀ k, inp.keyPress = some k →
      ∃ t, step s = .next t ∧ (t.getV r).toNat = k.val ∧ t.mode = .running ∧ t.inputs = inp ∧ t.report = none ∧
        OnlyChanges s₁ t (fun e => e = .reg r ∨ e = .mode ∨ e = .inputs ∨ e = .report))

/-- Nothing faults and nothing is refused: from every state a step of the model answers a next state. No memory access faults
(R51); that a fatal condition and a `Step` in `HALTED` are next states too is the model's choice (D24, D35, log 11). -/
def Obligations.EveryStepAnswersNext : Prop := ∀ s : State, ∃ t, step s = .next t

/-- R94: an instruction ignores the inputs it does not name. Changing all of them changes nothing but the input lines, as long
as `keys` stays for the keypad skips and `rnd` for `Cxkk`; no instruction reads `key_press` in its own step (R187, R193). -/
def Obligations.UnnamedInputsAreIgnored : Prop :=
  ∀ (i : Instr) (s t : State) (inp : Inputs),
    ((∃ x, i = .skp x ∨ i = .sknp x) → inp.keys = s.inputs.keys) →
    ((∃ x kk, i = .rnd x kk) → inp.rnd = s.inputs.rnd) →
    exec i s = .next t → exec i { s with inputs := inp } = .next { t with inputs := inp }

/-- 10_state.md section 1, column "written by" (R20 to R31): no instruction changes an element that the table does not let it
write: of the memory only the bytes it stores to, of the stack only the slot a call pushes to, of the framebuffer only the
pixels under the sprite; only the ten of R23's table leave `pc` at another value than the advanced one. VF stays but for a
destination or a documented flag (D12), `I` stays under the transfers and the draw (D17, D18, D19). -/
def Obligations.InstructionsWriteOnlyTheirElements : Prop :=
  ∀ (i : Instr) (s t : State), exec i s = .next t → OnlyChanges s t (mayWrite s i)

/-- R100: a jump to its own address leaves every element of the core as it was. -/
def Obligations.SelfJumpChangesNothing : Prop :=
  ∀ (s s₁ : State) (inp : Inputs),
    s.takeTransaction = (.step inp, s₁) → s.mode = .running → s.pc.toNat < 4096 →
    (s.memRead s.pc.toNat ++ s.memRead (s.pc.toNat + 1)).toNat = 0x1000 + s.pc.toNat →
    step s = .next { s₁ with inputs := inp, report := none }

/-- R61 (D30; the addresses mod 4096, D4, D18): a store is seen by the very next fetch, whose high byte is the one at `pc` and
whose low byte the one at `pc + 1`: each of the two that `Fx55` stores to is the register stored there, each that `Fx33` stores
to is the decimal digit stored there, and each that neither stores to is what the fetch would have read before. -/
def Obligations.NextFetchSeesTheStore : Prop :=
  (∀ (s t : State) (x : Reg), exec (.ldMemVx x) s = .next t →
    (∀ r : Reg, r ≤ x →
      (s.pc.toNat % 4096 = s.elementAddr r.val → t.fetchWord.toNat / 256 = (s.getV r).toNat) ∧
      ((s.pc.toNat + 1) % 4096 = s.elementAddr r.val → t.fetchWord.toNat % 256 = (s.getV r).toNat)) ∧
    ((∀ r : Reg, r ≤ x → s.pc.toNat % 4096 ≠ s.elementAddr r.val) →
      t.fetchWord.toNat / 256 = s.fetchWord.toNat / 256) ∧
    ((∀ r : Reg, r ≤ x → (s.pc.toNat + 1) % 4096 ≠ s.elementAddr r.val) →
      t.fetchWord.toNat % 256 = s.fetchWord.toNat % 256)) ∧
  (∀ (s t : State) (x : Reg), exec (.ldBVx x) s = .next t →
    (∀ k < 3,
      (s.pc.toNat % 4096 = s.elementAddr k → t.fetchWord.toNat / 256 = (s.getV x).toNat / 10 ^ (2 - k) % 10) ∧
      ((s.pc.toNat + 1) % 4096 = s.elementAddr k → t.fetchWord.toNat % 256 = (s.getV x).toNat / 10 ^ (2 - k) % 10)) ∧
    ((∀ k < 3, s.pc.toNat % 4096 ≠ s.elementAddr k) → t.fetchWord.toNat / 256 = s.fetchWord.toNat / 256) ∧
    ((∀ k < 3, (s.pc.toNat + 1) % 4096 ≠ s.elementAddr k) → t.fetchWord.toNat % 256 = s.fetchWord.toNat % 256))

/-! ### Tick, Load, Reset (45_timers_keypad.md, 20_memory.md, 70_reset_and_hazards.md) -/

/-- R191 (in every mode, D27): a tick takes 1 off each nonzero timer, leaves a zero timer at 0, and changes nothing else. -/
def Obligations.TickDecrementsTimers : Prop :=
  ∀ s s₁ : State, s.takeTransaction = (.tick, s₁) →
    ∃ t, step s = .next t ∧ t.dt.toNat = s.dt.toNat - 1 ∧ t.st.toNat = s.st.toNat - 1 ∧ t.report = none ∧
      OnlyChanges s₁ t (fun e => e = .dt ∨ e = .st ∨ e = .report)

/-- R191: a timer at `N` is at 0 after `N` ticks and stays there, never negative; nothing but the timers, the schedule and the
report line changes on the way. -/
def Obligations.TicksDrainTimersToZero : Prop :=
  ∀ (s : State) (n : Nat) (rest : List Transaction), s.schedule = List.replicate n .tick ++ rest →
    ∃ t, Host.Core.run Sys2Proof.core n s = .next t ∧ t.dt.toNat = s.dt.toNat - n ∧ t.st.toNat = s.st.toNat - n ∧
      t.schedule = rest ∧ t.freeCount = s.freeCount ∧
      OnlyChanges s t (fun e => e = .dt ∨ e = .st ∨ e = .schedule ∨ e = .report)

/-- R191, R26, R27: no `Step` changes a timer but by `Fx15` and `Fx18`, which set it to a register. -/
def Obligations.StepChangesTimersOnlyByTheirLoads : Prop :=
  ∀ (s s₁ t : State) (inp : Inputs), s.takeTransaction = (.step inp, s₁) → step s = .next t →
    (t.dt = s.dt ∨ ∃ x, s.mode = .running ∧ decodeWord s.fetchWord = .ok (.ldDtVx x) ∧ t.dt = s.getV x) ∧
    (t.st = s.st ∨ ∃ x, s.mode = .running ∧ decodeWord s.fetchWord = .ok (.ldStVx x) ∧ t.st = s.getV x)

/-- R62 (D29): an image of at most 3584 bytes is copied to 0x200 on, `ok` is reported, and no other byte and nothing else of
the core changes. -/
def Obligations.LoadCopiesTheImage : Prop :=
  ∀ (s s₁ : State) (image : List Byte), s.takeTransaction = (.load image, s₁) → image.length ≤ 3584 →
    ∃ t, step s = .next t ∧ (∀ (k : Nat) (b : Byte), image[k]? = some b → t.memRead (0x200 + k) = b) ∧
      t.report = some .loadOk ∧
      OnlyChanges s₁ t (fun e => e = .report ∨ ∃ k < image.length, e = .byte (0x200 + k))

/-- R62, R204 (D29): a longer image is refused with `RomTooLarge(len)` and nothing is written. -/
def Obligations.LoadRefusesTooLargeImage : Prop :=
  ∀ (s s₁ : State) (image : List Byte), s.takeTransaction = (.load image, s₁) → image.length > 3584 →
    step s = .next { s₁ with report := some (.romTooLarge image.length) }

/-- R34, R230 (with D15, D16, D28): `Reset` sets every element of the core, from any state and in any mode, for any admissible
parameters, and leaves the parameters and the host's schedule. -/
def Obligations.ResetSetsEveryElement : Prop :=
  ∀ s s₁ : State, s.takeTransaction = (.reset, s₁) → s.params.wellFormed = true →
    ∃ t, step s = .next t ∧ (∀ r, t.getV r = 0x00) ∧ t.i = 0x000 ∧ t.pc = 0x200 ∧ t.sp = 0 ∧
      (∀ j : Fin 16, t.stack[j.val] = 0x0000) ∧ t.dt = 0x00 ∧ t.st = 0x00 ∧ t.soundOn = false ∧
      (∀ x y, t.pixel x y = false) ∧
      (∀ j : Fin 80, t.memRead (s.params.fontBase + j.val) = s.params.fontData[j.val]) ∧
      (∀ a < 4096, (∀ j : Fin 80, a ≠ s.params.fontBase + j.val) → t.memRead a = s.params.memInit) ∧
      t.mode = .running ∧ t.fault = none ∧ t.report = none ∧
      Same s₁ t .params ∧ Same s₁ t .schedule ∧ Same s₁ t .inputs

/-- R34, with the default parameters of R9 (D15, D16, D28; log 3): the reset state. The font is table G1, which the spec takes
from general knowledge. -/
def Obligations.ResetStateHoldsTheResetValues : Prop :=
  (∀ r, State.reset.getV r = 0x00) ∧ State.reset.i = 0x000 ∧ State.reset.pc = 0x200 ∧ State.reset.sp = 0 ∧
  (∀ j : Fin 16, State.reset.stack[j.val] = 0x0000) ∧ State.reset.dt = 0x00 ∧ State.reset.st = 0x00 ∧
  (∀ x y, State.reset.pixel x y = false) ∧ State.reset.mode = .running ∧ State.reset.fault = none ∧
  State.reset.memRead 0x000 = 0xF0 ∧ State.reset.memRead 0x004 = 0xF0 ∧ State.reset.memRead 0x005 = 0x20 ∧
  State.reset.memRead 0x04B = 0xF0 ∧ State.reset.memRead 0x04F = 0x80 ∧
  (∀ a, 0x050 ≤ a → a < 4096 → State.reset.memRead a = 0x00)

/-- The invariant of the model holds in the reset state: `pc` and the stack slots are 12-bit addresses, no fault is recorded and
the mode is not `HALTED` (R23, R25, R31, R34); that memory is in its canonical form is the model's own (log 10); that the font
lies in the reserved region is R9's constraint on the parameters, which are the defaults here (D15, log 3). -/
def Obligations.ResetStateMeetsInvariant : Prop := State.reset.Inv

/-- Every transaction keeps the invariant of the model: `pc` and the stack slots stay 12-bit addresses, and the machine is halted
exactly when a fault is recorded (R23, R25, R31, with D2, D6, D24; that `pc` stays so in every run is DEDUCED, log 10); memory
stays in its canonical form, which is the model's own (log 10); the parameters stay admissible (R9, D15; log 3). -/
def Obligations.EveryStepKeepsInvariant : Prop := ∀ s t : State, s.Inv → step s = .next t → t.Inv

/-- R209, R210, R230 (with D24, D27): only `Reset` leaves `HALTED`. Any other transaction keeps the mode and the fault record
and every element of the core, but for the timers under a `Tick` and, under a `Load` of an image that fits, the bytes it copies
to 0x200 on (D29, D35). -/
def Obligations.OnlyResetLeavesHalted : Prop :=
  ∀ (s s₁ : State) (tr : Transaction), s.mode = .halted → s.takeTransaction = (tr, s₁) → tr ≠ .reset →
    ∃ t, step s = .next t ∧ t.mode = .halted ∧ t.fault = s.fault ∧
      OnlyChanges s₁ t (fun e => e = .inputs ∨ e = .report ∨ (tr = .tick ∧ (e = .dt ∨ e = .st)) ∨
        (∃ image, tr = .load image ∧ imageWellFormed image = true ∧ ∃ k < image.length, e = .byte (0x200 + k)))

/-! ### Control transfer (41_control_flow.md) -/

/-- R110: a return with calls outstanding pops the return address; the slot keeps its content and nothing else changes. -/
def Obligations.ReturnPopsTheStack : Prop :=
  decodeWord 0x00EE = .ok .ret ∧
  ∀ (s : State) (j : Fin 16), s.sp.val = j.val + 1 →
    ∃ t, exec .ret s = .next t ∧ t.sp.val = j.val ∧ t.pc.toNat = s.stack[j.val].toNat % 4096 ∧
      OnlyChanges s t (fun e => e = .sp ∨ e = .pc)

/-- R110, R202, R208 (D24): a return with an empty stack halts: the record holds the condition, the opcode and its address,
`pc` is the advanced one, and nothing else of the core changes. -/
def Obligations.ReturnOnEmptyStackHalts : Prop :=
  ∀ (s s₁ : State) (inp : Inputs), s.takeTransaction = (.step inp, s₁) → s.mode = .running →
    s.memRead s.pc.toNat ++ s.memRead (s.pc.toNat + 1) = (0x00EE : Word) → s.sp = 0 →
    step s = .next { s₁ with
      inputs := inp, report := none, pc := BitVec.ofNat 16 ((s.pc.toNat + 2) % 4096), mode := .halted
      fault := some { kind := .stackUnderflow, opcode := 0x00EE, addr := BitVec.ofNat 12 s.pc.toNat } }

/-- R111: a jump loads all 12 bits of `nnn`. -/
def Obligations.JumpLoadsPc : Prop :=
  ∀ (s : State) (nnn : Addr), decodeWord (0x1#4 ++ nnn) = .ok (.jp nnn) ∧
    ∃ t, exec (.jp nnn) s = .next t ∧ t.pc.toNat = nnn.toNat ∧ OnlyChanges s t (fun e => e = .pc)

/-- R112: a call with a free slot pushes the advanced `pc` and jumps; nothing else changes. -/
def Obligations.CallPushesAndJumps : Prop :=
  ∀ (s : State) (nnn : Addr) (j : Fin 16), s.sp.val = j.val →
    decodeWord (0x2#4 ++ nnn) = .ok (.call nnn) ∧
    ∃ t, exec (.call nnn) s = .next t ∧ t.stack[j.val] = s.pc ∧ t.sp.val = j.val + 1 ∧ t.pc.toNat = nnn.toNat ∧
      OnlyChanges s t (fun e => e = .slot j ∨ e = .sp ∨ e = .pc)

/-- R112, R201, R208 (D24): a call with a full stack halts: the record holds the condition, the fetched opcode and its
address, `pc` is the advanced one and not `nnn`, and nothing else of the core changes. -/
def Obligations.CallOnFullStackHalts : Prop :=
  ∀ (s s₁ : State) (inp : Inputs) (w : Word) (nnn : Addr), s.takeTransaction = (.step inp, s₁) → s.mode = .running →
    s.memRead s.pc.toNat ++ s.memRead (s.pc.toNat + 1) = w → decodeWord w = .ok (.call nnn) → s.sp.val = 16 →
    step s = .next { s₁ with
      inputs := inp, report := none, pc := BitVec.ofNat 16 ((s.pc.toNat + 2) % 4096), mode := .halted
      fault := some { kind := .stackOverflow, opcode := w, addr := BitVec.ofNat 12 s.pc.toNat } }

/-- R119: (a) a return that finds the stack a call left restores `pc` to the value right after the call's fetch, and `sp` to its
value before the call; (b) from an empty stack 16 calls succeed and a 17th fails with `StackOverflow`, and a return on an
empty stack fails with `StackUnderflow`. -/
def Obligations.CallAndReturnLaws : Prop :=
  (∀ (s t u : State) (nnn : Addr), s.pc.toNat < 4096 → s.sp.val < 16 → exec (.call nnn) s = .next t →
    u.sp = t.sp → u.stack = t.stack → ∃ r, exec .ret u = .next r ∧ r.pc = s.pc ∧ r.sp = s.sp) ∧
  (∀ (s : State) (targets : List Addr), s.sp = 0 → targets.length = 16 →
    ∃ t, execAll (targets.map .call) s = .next t ∧ t.sp.val = 16 ∧ t.mode = s.mode ∧ t.fault = s.fault ∧
      ∀ nnn, ∃ u, exec (.call nnn) t = .next u ∧ u.mode = .halted ∧ u.fault.map (·.kind) = some .stackOverflow ∧
        u.sp = t.sp ∧ u.pc = t.pc ∧ u.stack = t.stack) ∧
  (∀ s : State, s.sp = 0 →
    ∃ u, exec .ret s = .next u ∧ u.mode = .halted ∧ u.fault.map (·.kind) = some .stackUnderflow)

/-- R113, R114, R118: `3xkk` skips exactly when `Vx = kk`, `4xkk` exactly when it does not; a taken skip adds 2 to the advanced
`pc`, mod 4096 (D2); nothing else changes. -/
def Obligations.ImmediateSkips : Prop :=
  ∀ (s : State) (x : Reg) (kk : Byte),
    decodeWord (0x3#4 ++ nibble x ++ kk) = .ok (.seImm x kk) ∧ decodeWord (0x4#4 ++ nibble x ++ kk) = .ok (.sneImm x kk) ∧
    (∃ t, exec (.seImm x kk) s = .next t ∧ OnlyChanges s t (fun e => e = .pc) ∧
      (s.getV x = kk → t.pc.toNat = (s.pc.toNat + 2) % 4096) ∧ (s.getV x ≠ kk → t.pc = s.pc)) ∧
    (∃ t, exec (.sneImm x kk) s = .next t ∧ OnlyChanges s t (fun e => e = .pc) ∧
      (s.getV x ≠ kk → t.pc.toNat = (s.pc.toNat + 2) % 4096) ∧ (s.getV x = kk → t.pc = s.pc))

/-- R115, R116, R118: `5xy0` skips exactly when `Vx = Vy`, `9xy0` exactly when they differ; a taken skip adds 2 to the advanced
`pc`, mod 4096 (D2); nothing else changes; with another last digit both words are no instruction (D7). -/
def Obligations.RegisterSkips : Prop :=
  ∀ (s : State) (x y : Reg),
    (decodeWord (0x5#4 ++ nibble x ++ nibble y ++ 0x0#4) = .ok (.seReg x y) ∧
      decodeWord (0x9#4 ++ nibble x ++ nibble y ++ 0x0#4) = .ok (.sneReg x y)) ∧
    (∀ (n : BitVec 4) (i : Instr), n ≠ 0 → decodeWord (0x5#4 ++ nibble x ++ nibble y ++ n) ≠ .ok i ∧
      decodeWord (0x9#4 ++ nibble x ++ nibble y ++ n) ≠ .ok i) ∧
    (∃ t, exec (.seReg x y) s = .next t ∧ OnlyChanges s t (fun e => e = .pc) ∧
      (s.getV x = s.getV y → t.pc.toNat = (s.pc.toNat + 2) % 4096) ∧ (s.getV x ≠ s.getV y → t.pc = s.pc)) ∧
    (∃ t, exec (.sneReg x y) s = .next t ∧ OnlyChanges s t (fun e => e = .pc) ∧
      (s.getV x ≠ s.getV y → t.pc.toNat = (s.pc.toNat + 2) % 4096) ∧ (s.getV x = s.getV y → t.pc = s.pc))

/-- R117 (D13): the indexed jump adds register 0, whatever the digits of `nnn`, mod 4096; nothing else changes. -/
def Obligations.IndexedJumpAddsV0 : Prop :=
  ∀ (s : State) (nnn : Addr), ∃ t, exec (.jpV0 nnn) s = .next t ∧
    t.pc.toNat = (nnn.toNat + (s.getV 0).toNat) % 4096 ∧ OnlyChanges s t (fun e => e = .pc)

/-! ### Register load, arithmetic, logic, shifts, random (42_alu.md) -/

/-- R130: `6xkk` loads the immediate, VF like any register. -/
def Obligations.LoadImmediate : Prop :=
  ∀ (s : State) (x : Reg) (kk : Byte), decodeWord (0x6#4 ++ nibble x ++ kk) = .ok (.ldImm x kk) ∧
    ∃ t, exec (.ldImm x kk) s = .next t ∧ t.getV x = kk ∧ OnlyChanges s t (fun e => e = .reg x)

/-- R131: `7xkk` adds the immediate mod 256, with no flag side effect. -/
def Obligations.AddImmediate : Prop :=
  ∀ (s : State) (x : Reg) (kk : Byte), decodeWord (0x7#4 ++ nibble x ++ kk) = .ok (.addImm x kk) ∧
    ∃ t, exec (.addImm x kk) s = .next t ∧ (t.getV x).toNat = ((s.getV x).toNat + kk.toNat) % 256 ∧
      OnlyChanges s t (fun e => e = .reg x)

/-- R132 (the sub-opcode 0, D8; VF unchanged unless it is the destination, D12): `8xy0` copies `Vy` to `Vx`. -/
def Obligations.CopyRegister : Prop :=
  ∀ (s : State) (x y : Reg), decodeWord (0x8#4 ++ nibble x ++ nibble y ++ 0x0#4) = .ok (.ldReg x y) ∧
    ∃ t, exec (.ldReg x y) s = .next t ∧ t.getV x = s.getV y ∧ OnlyChanges s t (fun e => e = .reg x)

/-- R133, R134, R135 (VF unchanged unless it is the destination, D12): OR, AND and XOR, bit by bit. -/
def Obligations.LogicOperations : Prop :=
  ∀ (s : State) (x y : Reg),
    (∃ t, exec (.or x y) s = .next t ∧ OnlyChanges s t (fun e => e = .reg x) ∧
      ∀ b < 8, (t.getV x).getLsbD b = ((s.getV x).getLsbD b || (s.getV y).getLsbD b)) ∧
    (∃ t, exec (.and x y) s = .next t ∧ OnlyChanges s t (fun e => e = .reg x) ∧
      ∀ b < 8, (t.getV x).getLsbD b = ((s.getV x).getLsbD b && (s.getV y).getLsbD b)) ∧
    (∃ t, exec (.xor x y) s = .next t ∧ OnlyChanges s t (fun e => e = .reg x) ∧
      ∀ b < 8, (t.getV x).getLsbD b = ((s.getV x).getLsbD b ^^ (s.getV y).getLsbD b))

/-- R136, R143 (the order of the writes, D10): `8xy4` adds mod 256 and sets VF to the carry; when `x` is 15 the flag stays. -/
def Obligations.AddRegistersSetsCarry : Prop :=
  ∀ (s : State) (x y : Reg), ∃ t, exec (.addReg x y) s = .next t ∧
    (x ≠ 15 → (t.getV x).toNat = ((s.getV x).toNat + (s.getV y).toNat) % 256) ∧
    (t.getV 15).toNat = (if (s.getV x).toNat + (s.getV y).toNat > 255 then 1 else 0) ∧
    OnlyChanges s t (fun e => e = .reg x ∨ e = .reg 15)

/-- R137, R139, R143 (strict comparison, D11; order of the writes, D10): the two subtractions wrap mod 256 and set VF to
"strictly greater"; when `x` is 15 the flag stays. -/
def Obligations.SubtractionsSetGreaterFlag : Prop :=
  ∀ (s : State) (x y : Reg),
    (∃ t, exec (.sub x y) s = .next t ∧
      (x ≠ 15 → (t.getV x).toNat = ((s.getV x).toNat + 256 - (s.getV y).toNat) % 256) ∧
      (t.getV 15).toNat = (if (s.getV x).toNat > (s.getV y).toNat then 1 else 0) ∧
      OnlyChanges s t (fun e => e = .reg x ∨ e = .reg 15)) ∧
    (∃ t, exec (.subn x y) s = .next t ∧
      (x ≠ 15 → (t.getV x).toNat = ((s.getV y).toNat + 256 - (s.getV x).toNat) % 256) ∧
      (t.getV 15).toNat = (if (s.getV y).toNat > (s.getV x).toNat then 1 else 0) ∧
      OnlyChanges s t (fun e => e = .reg x ∨ e = .reg 15))

/-- R138, R140, R143 (`Vx` is shifted and `y` ignored, D9; order of the writes, D10): the shifts by one, VF is the bit lost; when
`x` is 15 the flag stays; all 16 values of `y` give the same. -/
def Obligations.ShiftsSetLostBit : Prop :=
  ∀ (s : State) (x : Reg),
    (∃ t, (∀ y, exec (.shr x y) s = .next t) ∧ (x ≠ 15 → (t.getV x).toNat = (s.getV x).toNat / 2) ∧
      (t.getV 15).toNat = (s.getV x).toNat % 2 ∧ OnlyChanges s t (fun e => e = .reg x ∨ e = .reg 15)) ∧
    (∃ t, (∀ y, exec (.shl x y) s = .next t) ∧ (x ≠ 15 → (t.getV x).toNat = 2 * (s.getV x).toNat % 256) ∧
      (t.getV 15).toNat = (s.getV x).toNat / 128 ∧ OnlyChanges s t (fun e => e = .reg x ∨ e = .reg 15))

/-- R141 (the random byte is an input under no law, D14): `Cxkk` stores the step's random byte masked by `kk`, so no bit
outside `kk` is set; it holds for every value of the input. -/
def Obligations.RandomIsMasked : Prop :=
  ∀ (s : State) (x : Reg) (kk : Byte), ∃ t, exec (.rnd x kk) s = .next t ∧
    (∀ b < 8, (t.getV x).getLsbD b = (s.inputs.rnd.getLsbD b && kk.getLsbD b)) ∧ OnlyChanges s t (fun e => e = .reg x)

/-! ### Address register and memory transfers (43_index_memory.md) -/

/-- R150: `Annn` loads the address register, and no general register. -/
def Obligations.LoadAddressRegister : Prop :=
  ∀ (s : State) (nnn : Addr), decodeWord (0xA#4 ++ nnn) = .ok (.ldI nnn) ∧
    ∃ t, exec (.ldI nnn) s = .next t ∧ t.i = nnn ∧ OnlyChanges s t (fun e => e = .addrReg)

/-- R151 (VF unchanged, D12): `Fx1E` adds `Vx` to the address register mod 4096, with no flag. -/
def Obligations.AddToAddressRegister : Prop :=
  ∀ (s : State) (x : Reg), decodeWord (0xF#4 ++ nibble x ++ 0x1E#8) = .ok (.addIVx x) ∧
    ∃ t, exec (.addIVx x) s = .next t ∧ t.i.toNat = (s.i.toNat + (s.getV x).toNat) % 4096 ∧
      OnlyChanges s t (fun e => e = .addrReg)

/-- R152 (for every `FONT_BASE`, and all 8 bits of `Vx`, D15): `Fx29` points `I` at the glyph. -/
def Obligations.PointAtGlyph : Prop :=
  ∀ (s : State) (x : Reg), ∃ t, exec (.ldFVx x) s = .next t ∧
    t.i.toNat = (s.params.fontBase + 5 * (s.getV x).toNat) % 4096 ∧ OnlyChanges s t (fun e => e = .addrReg)

/-- R153 (addresses mod 4096, D18): `Fx33` stores the three decimal digits of `Vx` at `EA(0)`, `EA(1)`, `EA(2)`, from which
`Vx` is rebuilt, and changes no other byte, not `I`, not `Vx`. -/
def Obligations.StoreDecimalDigits : Prop :=
  ∀ (s : State) (x : Reg), ∃ t, exec (.ldBVx x) s = .next t ∧
    (t.memRead (s.elementAddr 0)).toNat = (s.getV x).toNat / 100 ∧
    (t.memRead (s.elementAddr 1)).toNat = (s.getV x).toNat / 10 % 10 ∧
    (t.memRead (s.elementAddr 2)).toNat = (s.getV x).toNat % 10 ∧
    (s.getV x).toNat = 100 * (t.memRead (s.elementAddr 0)).toNat + 10 * (t.memRead (s.elementAddr 1)).toNat +
      (t.memRead (s.elementAddr 2)).toNat ∧
    OnlyChanges s t (fun e => ∃ k < 3, e = .byte (s.elementAddr k))

/-- R154 (`I` unchanged, D17): `Fx55` stores `V0` to `Vx` at `EA(0)` to `EA(x)` and changes no other byte and nothing else. -/
def Obligations.StoreRegisters : Prop :=
  ∀ (s : State) (x : Reg), ∃ t, exec (.ldMemVx x) s = .next t ∧
    (∀ r : Reg, r ≤ x → t.memRead (s.elementAddr r.val) = s.getV r) ∧
    OnlyChanges s t (fun e => ∃ r : Reg, r ≤ x ∧ e = .byte (s.elementAddr r.val))

/-- R155 (`I` unchanged, D17): `Fx65` loads `V0` to `Vx` from `EA(0)` to `EA(x)` and changes nothing else. -/
def Obligations.LoadRegisters : Prop :=
  ∀ (s : State) (x : Reg), ∃ t, exec (.ldVxMem x) s = .next t ∧
    (∀ r : Reg, r ≤ x → t.getV r = s.memRead (s.elementAddr r.val)) ∧
    OnlyChanges s t (fun e => ∃ r : Reg, r ≤ x ∧ e = .reg r)

/-- R154, R155 (D17): registers stored by `Fx55` come back by `Fx65` with the same `x` and `I`, whatever the registers hold in
between. -/
def Obligations.StoredRegistersComeBack : Prop :=
  ∀ (s t u : State) (x : Reg), exec (.ldMemVx x) s = .next t → u.i = t.i → u.mem = t.mem → u.params = t.params →
    ∃ w, exec (.ldVxMem x) u = .next w ∧ ∀ r : Reg, r ≤ x → w.getV r = s.getV r

/-! ### Display (44_display.md) -/

/-- R171: `00E0` clears every pixel and changes nothing else. -/
def Obligations.ClearDisplay : Prop :=
  decodeWord 0x00E0 = .ok .cls ∧
  ∀ s : State, ∃ t, exec .cls s = .next t ∧ (∀ x y, t.pixel x y = false) ∧
    OnlyChanges s t (fun e => ∃ x y, e = .pixel x y)

/-- R172, R173 (`n = 0` and the order of reads and writes, D19): `Dxyn` flips exactly the pixels the sprite covers, with both
coordinates wrapping, and sets VF to whether a set pixel was turned off; nothing else changes. The coordinates are those of
the registers before VF is written. -/
def Obligations.DrawFlipsSpriteAndSetsCollision : Prop :=
  ∀ (s : State) (x y : Reg) (n : Fin 16), ∃ t, exec (.drw x y n) s = .next t ∧
    (∀ px py, spriteSets s ((s.getV x).toNat % 64) ((s.getV y).toNat % 32) n.val px py →
      t.pixel px py = !s.pixel px py) ∧
    (∀ px py, ¬ spriteSets s ((s.getV x).toNat % 64) ((s.getV y).toNat % 32) n.val px py →
      t.pixel px py = s.pixel px py) ∧
    ((∃ px py, spriteSets s ((s.getV x).toNat % 64) ((s.getV y).toNat % 32) n.val px py ∧ s.pixel px py = true) →
      t.getV 15 = 0x01) ∧
    ((¬ ∃ px py, spriteSets s ((s.getV x).toNat % 64) ((s.getV y).toNat % 32) n.val px py ∧ s.pixel px py = true) →
      t.getV 15 = 0x00) ∧
    OnlyChanges s t (fun e => e = .reg 15 ∨ ∃ px py, e = .pixel px py)

/-- R172(i), R173: drawing the same sprite a second time at the same coordinates restores the whole picture, and the second
draw reports a collision exactly when the first one turned a pixel on. -/
def Obligations.DrawingTwiceRestoresThePicture : Prop :=
  ∀ (s t u : State) (x y : Reg) (n : Fin 16), exec (.drw x y n) s = .next t →
    u.fb = t.fb → u.mem = t.mem → u.params = t.params → u.i = t.i → u.getV x = s.getV x → u.getV y = s.getV y →
    ∃ w, exec (.drw x y n) u = .next w ∧ (∀ px py, w.pixel px py = s.pixel px py) ∧
      (w.getV 15 = 0x01 ↔ ∃ px py, s.pixel px py = false ∧ t.pixel px py = true)

/-! ### Keypad and timers (45_timers_keypad.md) -/

/-- R185, R186, R118 (key number = `Vx[3:0]`, D21; the skip mod 4096, D2): `Ex9E` skips exactly when the key is held, `ExA1`
exactly when it is not; they test the level and change nothing but `pc`. -/
def Obligations.KeypadSkips : Prop :=
  ∀ (s : State) (x : Reg),
    (∃ t, exec (.skp x) s = .next t ∧ OnlyChanges s t (fun e => e = .pc) ∧
      (s.inputs.keys.getLsbD ((s.getV x).toNat % 16) = true → t.pc.toNat = (s.pc.toNat + 2) % 4096) ∧
      (s.inputs.keys.getLsbD ((s.getV x).toNat % 16) = false → t.pc = s.pc)) ∧
    (∃ t, exec (.sknp x) s = .next t ∧ OnlyChanges s t (fun e => e = .pc) ∧
      (s.inputs.keys.getLsbD ((s.getV x).toNat % 16) = false → t.pc.toNat = (s.pc.toNat + 2) % 4096) ∧
      (s.inputs.keys.getLsbD ((s.getV x).toNat % 16) = true → t.pc = s.pc))

/-- R187 (D22): the step of `Fx0A` only enters the wait, with the register latched; no register changes and no key press is
consumed. -/
def Obligations.WaitForKeyEntersWait : Prop :=
  ∀ (s : State) (x : Reg), decodeWord (0xF#4 ++ nibble x ++ 0x0A#8) = .ok (.ldVxK x) ∧
    ∃ t, exec (.ldVxK x) s = .next t ∧ t.mode = .waitKey x ∧ OnlyChanges s t (fun e => e = .mode)

/-- R188: `Fx07` copies the delay timer to `Vx` and leaves the timer. -/
def Obligations.ReadDelayTimer : Prop :=
  ∀ (s : State) (x : Reg), decodeWord (0xF#4 ++ nibble x ++ 0x07#8) = .ok (.ldVxDt x) ∧
    ∃ t, exec (.ldVxDt x) s = .next t ∧ t.getV x = s.dt ∧ OnlyChanges s t (fun e => e = .reg x)

/-- R189: `Fx15` copies `Vx` to the delay timer and leaves the sound timer. -/
def Obligations.SetDelayTimer : Prop :=
  ∀ (s : State) (x : Reg), decodeWord (0xF#4 ++ nibble x ++ 0x15#8) = .ok (.ldDtVx x) ∧
    ∃ t, exec (.ldDtVx x) s = .next t ∧ t.dt = s.getV x ∧ OnlyChanges s t (fun e => e = .dt)

/-- R190, R192 (`sound_on`, D33): `Fx18` copies `Vx` to the sound timer, and the sound output is on exactly when that is not
zero. -/
def Obligations.SetSoundTimer : Prop :=
  ∀ (s : State) (x : Reg), decodeWord (0xF#4 ++ nibble x ++ 0x18#8) = .ok (.ldStVx x) ∧
    ∃ t, exec (.ldStVx x) s = .next t ∧ t.st = s.getV x ∧ (t.soundOn = true ↔ s.getV x ≠ 0x00) ∧
      OnlyChanges s t (fun e => e = .st)
end

