-- ==== Sys2Proof/Laws/State.lean ====
section
/-! SUPPORT. Each update of the state, field by field: what it sets and what it leaves. So no later proof unfolds a record update. -/

namespace Sys2Proof.Machine.State

variable (s : State)

/-! ### `setV` -/

@[simp] theorem v_setV (r : Reg) (b : Byte) : (s.setV r b).v = s.v.set r.val b := rfl
@[simp] theorem i_setV (r : Reg) (b : Byte) : (s.setV r b).i = s.i := rfl
@[simp] theorem pc_setV (r : Reg) (b : Byte) : (s.setV r b).pc = s.pc := rfl
@[simp] theorem sp_setV (r : Reg) (b : Byte) : (s.setV r b).sp = s.sp := rfl
@[simp] theorem stack_setV (r : Reg) (b : Byte) : (s.setV r b).stack = s.stack := rfl
@[simp] theorem dt_setV (r : Reg) (b : Byte) : (s.setV r b).dt = s.dt := rfl
@[simp] theorem st_setV (r : Reg) (b : Byte) : (s.setV r b).st = s.st := rfl
@[simp] theorem fb_setV (r : Reg) (b : Byte) : (s.setV r b).fb = s.fb := rfl
@[simp] theorem mem_setV (r : Reg) (b : Byte) : (s.setV r b).mem = s.mem := rfl
@[simp] theorem mode_setV (r : Reg) (b : Byte) : (s.setV r b).mode = s.mode := rfl
@[simp] theorem fault_setV (r : Reg) (b : Byte) : (s.setV r b).fault = s.fault := rfl
@[simp] theorem params_setV (r : Reg) (b : Byte) : (s.setV r b).params = s.params := rfl
@[simp] theorem inputs_setV (r : Reg) (b : Byte) : (s.setV r b).inputs = s.inputs := rfl
@[simp] theorem schedule_setV (r : Reg) (b : Byte) : (s.setV r b).schedule = s.schedule := rfl
@[simp] theorem freeCount_setV (r : Reg) (b : Byte) : (s.setV r b).freeCount = s.freeCount := rfl
@[simp] theorem report_setV (r : Reg) (b : Byte) : (s.setV r b).report = s.report := rfl
@[simp] theorem memRead_setV (r : Reg) (b : Byte) (n : Nat) : (s.setV r b).memRead n = s.memRead n := rfl
@[simp] theorem pixel_setV (r : Reg) (b : Byte) (x : Fin 64) (y : Fin 32) : (s.setV r b).pixel x y = s.pixel x y := rfl
@[simp] theorem elementAddr_setV (r : Reg) (b : Byte) (k : Nat) : (s.setV r b).elementAddr k = s.elementAddr k := rfl
@[simp] theorem soundOn_setV (r : Reg) (b : Byte) : (s.setV r b).soundOn = s.soundOn := rfl

/-! ### `setRegs` -/

@[simp] theorem v_setRegs (w : Vector Byte 16) : (s.setRegs w).v = w := rfl
@[simp] theorem i_setRegs (w : Vector Byte 16) : (s.setRegs w).i = s.i := rfl
@[simp] theorem pc_setRegs (w : Vector Byte 16) : (s.setRegs w).pc = s.pc := rfl
@[simp] theorem sp_setRegs (w : Vector Byte 16) : (s.setRegs w).sp = s.sp := rfl
@[simp] theorem stack_setRegs (w : Vector Byte 16) : (s.setRegs w).stack = s.stack := rfl
@[simp] theorem dt_setRegs (w : Vector Byte 16) : (s.setRegs w).dt = s.dt := rfl
@[simp] theorem st_setRegs (w : Vector Byte 16) : (s.setRegs w).st = s.st := rfl
@[simp] theorem fb_setRegs (w : Vector Byte 16) : (s.setRegs w).fb = s.fb := rfl
@[simp] theorem mem_setRegs (w : Vector Byte 16) : (s.setRegs w).mem = s.mem := rfl
@[simp] theorem mode_setRegs (w : Vector Byte 16) : (s.setRegs w).mode = s.mode := rfl
@[simp] theorem fault_setRegs (w : Vector Byte 16) : (s.setRegs w).fault = s.fault := rfl
@[simp] theorem params_setRegs (w : Vector Byte 16) : (s.setRegs w).params = s.params := rfl
@[simp] theorem inputs_setRegs (w : Vector Byte 16) : (s.setRegs w).inputs = s.inputs := rfl
@[simp] theorem schedule_setRegs (w : Vector Byte 16) : (s.setRegs w).schedule = s.schedule := rfl
@[simp] theorem freeCount_setRegs (w : Vector Byte 16) : (s.setRegs w).freeCount = s.freeCount := rfl
@[simp] theorem report_setRegs (w : Vector Byte 16) : (s.setRegs w).report = s.report := rfl
@[simp] theorem memRead_setRegs (w : Vector Byte 16) (n : Nat) : (s.setRegs w).memRead n = s.memRead n := rfl
@[simp] theorem pixel_setRegs (w : Vector Byte 16) (x : Fin 64) (y : Fin 32) : (s.setRegs w).pixel x y = s.pixel x y := rfl
@[simp] theorem elementAddr_setRegs (w : Vector Byte 16) (k : Nat) : (s.setRegs w).elementAddr k = s.elementAddr k := rfl
@[simp] theorem soundOn_setRegs (w : Vector Byte 16) : (s.setRegs w).soundOn = s.soundOn := rfl

/-! ### `setI` -/

@[simp] theorem v_setI (a : Addr) : (s.setI a).v = s.v := rfl
@[simp] theorem i_setI (a : Addr) : (s.setI a).i = a := rfl
@[simp] theorem pc_setI (a : Addr) : (s.setI a).pc = s.pc := rfl
@[simp] theorem sp_setI (a : Addr) : (s.setI a).sp = s.sp := rfl
@[simp] theorem stack_setI (a : Addr) : (s.setI a).stack = s.stack := rfl
@[simp] theorem dt_setI (a : Addr) : (s.setI a).dt = s.dt := rfl
@[simp] theorem st_setI (a : Addr) : (s.setI a).st = s.st := rfl
@[simp] theorem fb_setI (a : Addr) : (s.setI a).fb = s.fb := rfl
@[simp] theorem mem_setI (a : Addr) : (s.setI a).mem = s.mem := rfl
@[simp] theorem mode_setI (a : Addr) : (s.setI a).mode = s.mode := rfl
@[simp] theorem fault_setI (a : Addr) : (s.setI a).fault = s.fault := rfl
@[simp] theorem params_setI (a : Addr) : (s.setI a).params = s.params := rfl
@[simp] theorem inputs_setI (a : Addr) : (s.setI a).inputs = s.inputs := rfl
@[simp] theorem schedule_setI (a : Addr) : (s.setI a).schedule = s.schedule := rfl
@[simp] theorem freeCount_setI (a : Addr) : (s.setI a).freeCount = s.freeCount := rfl
@[simp] theorem report_setI (a : Addr) : (s.setI a).report = s.report := rfl
@[simp] theorem getV_setI (a : Addr) (q : Reg) : (s.setI a).getV q = s.getV q := rfl
@[simp] theorem memRead_setI (a : Addr) (n : Nat) : (s.setI a).memRead n = s.memRead n := rfl
@[simp] theorem pixel_setI (a : Addr) (x : Fin 64) (y : Fin 32) : (s.setI a).pixel x y = s.pixel x y := rfl
@[simp] theorem soundOn_setI (a : Addr) : (s.setI a).soundOn = s.soundOn := rfl

/-! ### `setDt` -/

@[simp] theorem v_setDt (b : Byte) : (s.setDt b).v = s.v := rfl
@[simp] theorem i_setDt (b : Byte) : (s.setDt b).i = s.i := rfl
@[simp] theorem pc_setDt (b : Byte) : (s.setDt b).pc = s.pc := rfl
@[simp] theorem sp_setDt (b : Byte) : (s.setDt b).sp = s.sp := rfl
@[simp] theorem stack_setDt (b : Byte) : (s.setDt b).stack = s.stack := rfl
@[simp] theorem dt_setDt (b : Byte) : (s.setDt b).dt = b := rfl
@[simp] theorem st_setDt (b : Byte) : (s.setDt b).st = s.st := rfl
@[simp] theorem fb_setDt (b : Byte) : (s.setDt b).fb = s.fb := rfl
@[simp] theorem mem_setDt (b : Byte) : (s.setDt b).mem = s.mem := rfl
@[simp] theorem mode_setDt (b : Byte) : (s.setDt b).mode = s.mode := rfl
@[simp] theorem fault_setDt (b : Byte) : (s.setDt b).fault = s.fault := rfl
@[simp] theorem params_setDt (b : Byte) : (s.setDt b).params = s.params := rfl
@[simp] theorem inputs_setDt (b : Byte) : (s.setDt b).inputs = s.inputs := rfl
@[simp] theorem schedule_setDt (b : Byte) : (s.setDt b).schedule = s.schedule := rfl
@[simp] theorem freeCount_setDt (b : Byte) : (s.setDt b).freeCount = s.freeCount := rfl
@[simp] theorem report_setDt (b : Byte) : (s.setDt b).report = s.report := rfl
@[simp] theorem getV_setDt (b : Byte) (q : Reg) : (s.setDt b).getV q = s.getV q := rfl
@[simp] theorem memRead_setDt (b : Byte) (n : Nat) : (s.setDt b).memRead n = s.memRead n := rfl
@[simp] theorem pixel_setDt (b : Byte) (x : Fin 64) (y : Fin 32) : (s.setDt b).pixel x y = s.pixel x y := rfl
@[simp] theorem elementAddr_setDt (b : Byte) (k : Nat) : (s.setDt b).elementAddr k = s.elementAddr k := rfl
@[simp] theorem soundOn_setDt (b : Byte) : (s.setDt b).soundOn = s.soundOn := rfl

/-! ### `setSt` -/

@[simp] theorem v_setSt (b : Byte) : (s.setSt b).v = s.v := rfl
@[simp] theorem i_setSt (b : Byte) : (s.setSt b).i = s.i := rfl
@[simp] theorem pc_setSt (b : Byte) : (s.setSt b).pc = s.pc := rfl
@[simp] theorem sp_setSt (b : Byte) : (s.setSt b).sp = s.sp := rfl
@[simp] theorem stack_setSt (b : Byte) : (s.setSt b).stack = s.stack := rfl
@[simp] theorem dt_setSt (b : Byte) : (s.setSt b).dt = s.dt := rfl
@[simp] theorem st_setSt (b : Byte) : (s.setSt b).st = b := rfl
@[simp] theorem fb_setSt (b : Byte) : (s.setSt b).fb = s.fb := rfl
@[simp] theorem mem_setSt (b : Byte) : (s.setSt b).mem = s.mem := rfl
@[simp] theorem mode_setSt (b : Byte) : (s.setSt b).mode = s.mode := rfl
@[simp] theorem fault_setSt (b : Byte) : (s.setSt b).fault = s.fault := rfl
@[simp] theorem params_setSt (b : Byte) : (s.setSt b).params = s.params := rfl
@[simp] theorem inputs_setSt (b : Byte) : (s.setSt b).inputs = s.inputs := rfl
@[simp] theorem schedule_setSt (b : Byte) : (s.setSt b).schedule = s.schedule := rfl
@[simp] theorem freeCount_setSt (b : Byte) : (s.setSt b).freeCount = s.freeCount := rfl
@[simp] theorem report_setSt (b : Byte) : (s.setSt b).report = s.report := rfl
@[simp] theorem getV_setSt (b : Byte) (q : Reg) : (s.setSt b).getV q = s.getV q := rfl
@[simp] theorem memRead_setSt (b : Byte) (n : Nat) : (s.setSt b).memRead n = s.memRead n := rfl
@[simp] theorem pixel_setSt (b : Byte) (x : Fin 64) (y : Fin 32) : (s.setSt b).pixel x y = s.pixel x y := rfl
@[simp] theorem elementAddr_setSt (b : Byte) (k : Nat) : (s.setSt b).elementAddr k = s.elementAddr k := rfl

/-! ### `setFb` -/

@[simp] theorem v_setFb (fb : Framebuffer) : (s.setFb fb).v = s.v := rfl
@[simp] theorem i_setFb (fb : Framebuffer) : (s.setFb fb).i = s.i := rfl
@[simp] theorem pc_setFb (fb : Framebuffer) : (s.setFb fb).pc = s.pc := rfl
@[simp] theorem sp_setFb (fb : Framebuffer) : (s.setFb fb).sp = s.sp := rfl
@[simp] theorem stack_setFb (fb : Framebuffer) : (s.setFb fb).stack = s.stack := rfl
@[simp] theorem dt_setFb (fb : Framebuffer) : (s.setFb fb).dt = s.dt := rfl
@[simp] theorem st_setFb (fb : Framebuffer) : (s.setFb fb).st = s.st := rfl
@[simp] theorem fb_setFb (fb : Framebuffer) : (s.setFb fb).fb = fb := rfl
@[simp] theorem mem_setFb (fb : Framebuffer) : (s.setFb fb).mem = s.mem := rfl
@[simp] theorem mode_setFb (fb : Framebuffer) : (s.setFb fb).mode = s.mode := rfl
@[simp] theorem fault_setFb (fb : Framebuffer) : (s.setFb fb).fault = s.fault := rfl
@[simp] theorem params_setFb (fb : Framebuffer) : (s.setFb fb).params = s.params := rfl
@[simp] theorem inputs_setFb (fb : Framebuffer) : (s.setFb fb).inputs = s.inputs := rfl
@[simp] theorem schedule_setFb (fb : Framebuffer) : (s.setFb fb).schedule = s.schedule := rfl
@[simp] theorem freeCount_setFb (fb : Framebuffer) : (s.setFb fb).freeCount = s.freeCount := rfl
@[simp] theorem report_setFb (fb : Framebuffer) : (s.setFb fb).report = s.report := rfl
@[simp] theorem getV_setFb (fb : Framebuffer) (q : Reg) : (s.setFb fb).getV q = s.getV q := rfl
@[simp] theorem memRead_setFb (fb : Framebuffer) (n : Nat) : (s.setFb fb).memRead n = s.memRead n := rfl
@[simp] theorem elementAddr_setFb (fb : Framebuffer) (k : Nat) : (s.setFb fb).elementAddr k = s.elementAddr k := rfl
@[simp] theorem soundOn_setFb (fb : Framebuffer) : (s.setFb fb).soundOn = s.soundOn := rfl

/-! ### `setStack` -/

@[simp] theorem v_setStack (p : Fin 17) (w : Vector Word 16) : (s.setStack p w).v = s.v := rfl
@[simp] theorem i_setStack (p : Fin 17) (w : Vector Word 16) : (s.setStack p w).i = s.i := rfl
@[simp] theorem pc_setStack (p : Fin 17) (w : Vector Word 16) : (s.setStack p w).pc = s.pc := rfl
@[simp] theorem sp_setStack (p : Fin 17) (w : Vector Word 16) : (s.setStack p w).sp = p := rfl
@[simp] theorem stack_setStack (p : Fin 17) (w : Vector Word 16) : (s.setStack p w).stack = w := rfl
@[simp] theorem dt_setStack (p : Fin 17) (w : Vector Word 16) : (s.setStack p w).dt = s.dt := rfl
@[simp] theorem st_setStack (p : Fin 17) (w : Vector Word 16) : (s.setStack p w).st = s.st := rfl
@[simp] theorem fb_setStack (p : Fin 17) (w : Vector Word 16) : (s.setStack p w).fb = s.fb := rfl
@[simp] theorem mem_setStack (p : Fin 17) (w : Vector Word 16) : (s.setStack p w).mem = s.mem := rfl
@[simp] theorem mode_setStack (p : Fin 17) (w : Vector Word 16) : (s.setStack p w).mode = s.mode := rfl
@[simp] theorem fault_setStack (p : Fin 17) (w : Vector Word 16) : (s.setStack p w).fault = s.fault := rfl
@[simp] theorem params_setStack (p : Fin 17) (w : Vector Word 16) : (s.setStack p w).params = s.params := rfl
@[simp] theorem inputs_setStack (p : Fin 17) (w : Vector Word 16) : (s.setStack p w).inputs = s.inputs := rfl
@[simp] theorem schedule_setStack (p : Fin 17) (w : Vector Word 16) : (s.setStack p w).schedule = s.schedule := rfl
@[simp] theorem freeCount_setStack (p : Fin 17) (w : Vector Word 16) : (s.setStack p w).freeCount = s.freeCount := rfl
@[simp] theorem report_setStack (p : Fin 17) (w : Vector Word 16) : (s.setStack p w).report = s.report := rfl
@[simp] theorem getV_setStack (p : Fin 17) (w : Vector Word 16) (q : Reg) : (s.setStack p w).getV q = s.getV q := rfl
@[simp] theorem memRead_setStack (p : Fin 17) (w : Vector Word 16) (n : Nat) : (s.setStack p w).memRead n = s.memRead n := rfl
@[simp] theorem pixel_setStack (p : Fin 17) (w : Vector Word 16) (x : Fin 64) (y : Fin 32) : (s.setStack p w).pixel x y = s.pixel x y := rfl
@[simp] theorem elementAddr_setStack (p : Fin 17) (w : Vector Word 16) (k : Nat) : (s.setStack p w).elementAddr k = s.elementAddr k := rfl
@[simp] theorem soundOn_setStack (p : Fin 17) (w : Vector Word 16) : (s.setStack p w).soundOn = s.soundOn := rfl

/-! ### `setMode` -/

@[simp] theorem v_setMode (m : Mode) : (s.setMode m).v = s.v := rfl
@[simp] theorem i_setMode (m : Mode) : (s.setMode m).i = s.i := rfl
@[simp] theorem pc_setMode (m : Mode) : (s.setMode m).pc = s.pc := rfl
@[simp] theorem sp_setMode (m : Mode) : (s.setMode m).sp = s.sp := rfl
@[simp] theorem stack_setMode (m : Mode) : (s.setMode m).stack = s.stack := rfl
@[simp] theorem dt_setMode (m : Mode) : (s.setMode m).dt = s.dt := rfl
@[simp] theorem st_setMode (m : Mode) : (s.setMode m).st = s.st := rfl
@[simp] theorem fb_setMode (m : Mode) : (s.setMode m).fb = s.fb := rfl
@[simp] theorem mem_setMode (m : Mode) : (s.setMode m).mem = s.mem := rfl
@[simp] theorem mode_setMode (m : Mode) : (s.setMode m).mode = m := rfl
@[simp] theorem fault_setMode (m : Mode) : (s.setMode m).fault = s.fault := rfl
@[simp] theorem params_setMode (m : Mode) : (s.setMode m).params = s.params := rfl
@[simp] theorem inputs_setMode (m : Mode) : (s.setMode m).inputs = s.inputs := rfl
@[simp] theorem schedule_setMode (m : Mode) : (s.setMode m).schedule = s.schedule := rfl
@[simp] theorem freeCount_setMode (m : Mode) : (s.setMode m).freeCount = s.freeCount := rfl
@[simp] theorem report_setMode (m : Mode) : (s.setMode m).report = s.report := rfl
@[simp] theorem getV_setMode (m : Mode) (q : Reg) : (s.setMode m).getV q = s.getV q := rfl
@[simp] theorem memRead_setMode (m : Mode) (n : Nat) : (s.setMode m).memRead n = s.memRead n := rfl
@[simp] theorem pixel_setMode (m : Mode) (x : Fin 64) (y : Fin 32) : (s.setMode m).pixel x y = s.pixel x y := rfl
@[simp] theorem elementAddr_setMode (m : Mode) (k : Nat) : (s.setMode m).elementAddr k = s.elementAddr k := rfl
@[simp] theorem soundOn_setMode (m : Mode) : (s.setMode m).soundOn = s.soundOn := rfl

/-! ### `setPc` -/

@[simp] theorem v_setPc (n : Nat) : (s.setPc n).v = s.v := rfl
@[simp] theorem i_setPc (n : Nat) : (s.setPc n).i = s.i := rfl
@[simp] theorem pc_setPc (n : Nat) : (s.setPc n).pc = BitVec.ofNat 16 (n % 4096) := rfl
@[simp] theorem sp_setPc (n : Nat) : (s.setPc n).sp = s.sp := rfl
@[simp] theorem stack_setPc (n : Nat) : (s.setPc n).stack = s.stack := rfl
@[simp] theorem dt_setPc (n : Nat) : (s.setPc n).dt = s.dt := rfl
@[simp] theorem st_setPc (n : Nat) : (s.setPc n).st = s.st := rfl
@[simp] theorem fb_setPc (n : Nat) : (s.setPc n).fb = s.fb := rfl
@[simp] theorem mem_setPc (n : Nat) : (s.setPc n).mem = s.mem := rfl
@[simp] theorem mode_setPc (n : Nat) : (s.setPc n).mode = s.mode := rfl
@[simp] theorem fault_setPc (n : Nat) : (s.setPc n).fault = s.fault := rfl
@[simp] theorem params_setPc (n : Nat) : (s.setPc n).params = s.params := rfl
@[simp] theorem inputs_setPc (n : Nat) : (s.setPc n).inputs = s.inputs := rfl
@[simp] theorem schedule_setPc (n : Nat) : (s.setPc n).schedule = s.schedule := rfl
@[simp] theorem freeCount_setPc (n : Nat) : (s.setPc n).freeCount = s.freeCount := rfl
@[simp] theorem report_setPc (n : Nat) : (s.setPc n).report = s.report := rfl
@[simp] theorem getV_setPc (n : Nat) (q : Reg) : (s.setPc n).getV q = s.getV q := rfl
@[simp] theorem memRead_setPc (n : Nat) (k : Nat) : (s.setPc n).memRead k = s.memRead k := rfl
@[simp] theorem pixel_setPc (n : Nat) (x : Fin 64) (y : Fin 32) : (s.setPc n).pixel x y = s.pixel x y := rfl
@[simp] theorem elementAddr_setPc (n : Nat) (k : Nat) : (s.setPc n).elementAddr k = s.elementAddr k := rfl
@[simp] theorem soundOn_setPc (n : Nat) : (s.setPc n).soundOn = s.soundOn := rfl

/-! ### `memWrite` -/

@[simp] theorem v_memWrite (a : Nat) (b : Byte) : (s.memWrite a b).v = s.v := rfl
@[simp] theorem i_memWrite (a : Nat) (b : Byte) : (s.memWrite a b).i = s.i := rfl
@[simp] theorem pc_memWrite (a : Nat) (b : Byte) : (s.memWrite a b).pc = s.pc := rfl
@[simp] theorem sp_memWrite (a : Nat) (b : Byte) : (s.memWrite a b).sp = s.sp := rfl
@[simp] theorem stack_memWrite (a : Nat) (b : Byte) : (s.memWrite a b).stack = s.stack := rfl
@[simp] theorem dt_memWrite (a : Nat) (b : Byte) : (s.memWrite a b).dt = s.dt := rfl
@[simp] theorem st_memWrite (a : Nat) (b : Byte) : (s.memWrite a b).st = s.st := rfl
@[simp] theorem fb_memWrite (a : Nat) (b : Byte) : (s.memWrite a b).fb = s.fb := rfl
@[simp] theorem mem_memWrite (a : Nat) (b : Byte) : (s.memWrite a b).mem = Memory.write (memReset s.params) s.mem (a % 4096) b := rfl
@[simp] theorem mode_memWrite (a : Nat) (b : Byte) : (s.memWrite a b).mode = s.mode := rfl
@[simp] theorem fault_memWrite (a : Nat) (b : Byte) : (s.memWrite a b).fault = s.fault := rfl
@[simp] theorem params_memWrite (a : Nat) (b : Byte) : (s.memWrite a b).params = s.params := rfl
@[simp] theorem inputs_memWrite (a : Nat) (b : Byte) : (s.memWrite a b).inputs = s.inputs := rfl
@[simp] theorem schedule_memWrite (a : Nat) (b : Byte) : (s.memWrite a b).schedule = s.schedule := rfl
@[simp] theorem freeCount_memWrite (a : Nat) (b : Byte) : (s.memWrite a b).freeCount = s.freeCount := rfl
@[simp] theorem report_memWrite (a : Nat) (b : Byte) : (s.memWrite a b).report = s.report := rfl
@[simp] theorem getV_memWrite (a : Nat) (b : Byte) (q : Reg) : (s.memWrite a b).getV q = s.getV q := rfl
@[simp] theorem pixel_memWrite (a : Nat) (b : Byte) (x : Fin 64) (y : Fin 32) : (s.memWrite a b).pixel x y = s.pixel x y := rfl
@[simp] theorem elementAddr_memWrite (a : Nat) (b : Byte) (k : Nat) : (s.memWrite a b).elementAddr k = s.elementAddr k := rfl
@[simp] theorem soundOn_memWrite (a : Nat) (b : Byte) : (s.memWrite a b).soundOn = s.soundOn := rfl

/-! ### `raiseFatal` -/

@[simp] theorem v_raiseFatal (k : FatalKind) (w : Word) : (s.raiseFatal k w).v = s.v := rfl
@[simp] theorem i_raiseFatal (k : FatalKind) (w : Word) : (s.raiseFatal k w).i = s.i := rfl
@[simp] theorem pc_raiseFatal (k : FatalKind) (w : Word) : (s.raiseFatal k w).pc = s.pc := rfl
@[simp] theorem sp_raiseFatal (k : FatalKind) (w : Word) : (s.raiseFatal k w).sp = s.sp := rfl
@[simp] theorem stack_raiseFatal (k : FatalKind) (w : Word) : (s.raiseFatal k w).stack = s.stack := rfl
@[simp] theorem dt_raiseFatal (k : FatalKind) (w : Word) : (s.raiseFatal k w).dt = s.dt := rfl
@[simp] theorem st_raiseFatal (k : FatalKind) (w : Word) : (s.raiseFatal k w).st = s.st := rfl
@[simp] theorem fb_raiseFatal (k : FatalKind) (w : Word) : (s.raiseFatal k w).fb = s.fb := rfl
@[simp] theorem mem_raiseFatal (k : FatalKind) (w : Word) : (s.raiseFatal k w).mem = s.mem := rfl
@[simp] theorem mode_raiseFatal (k : FatalKind) (w : Word) : (s.raiseFatal k w).mode = .halted := rfl
@[simp] theorem fault_raiseFatal (k : FatalKind) (w : Word) : (s.raiseFatal k w).fault = some { kind := k, opcode := w, addr := s.instrAddr } := rfl
@[simp] theorem params_raiseFatal (k : FatalKind) (w : Word) : (s.raiseFatal k w).params = s.params := rfl
@[simp] theorem inputs_raiseFatal (k : FatalKind) (w : Word) : (s.raiseFatal k w).inputs = s.inputs := rfl
@[simp] theorem schedule_raiseFatal (k : FatalKind) (w : Word) : (s.raiseFatal k w).schedule = s.schedule := rfl
@[simp] theorem freeCount_raiseFatal (k : FatalKind) (w : Word) : (s.raiseFatal k w).freeCount = s.freeCount := rfl
@[simp] theorem report_raiseFatal (k : FatalKind) (w : Word) : (s.raiseFatal k w).report = s.report := rfl
@[simp] theorem getV_raiseFatal (k : FatalKind) (w : Word) (q : Reg) : (s.raiseFatal k w).getV q = s.getV q := rfl
@[simp] theorem memRead_raiseFatal (k : FatalKind) (w : Word) (n : Nat) : (s.raiseFatal k w).memRead n = s.memRead n := rfl
@[simp] theorem pixel_raiseFatal (k : FatalKind) (w : Word) (x : Fin 64) (y : Fin 32) : (s.raiseFatal k w).pixel x y = s.pixel x y := rfl
@[simp] theorem elementAddr_raiseFatal (k : FatalKind) (w : Word) (j : Nat) : (s.raiseFatal k w).elementAddr j = s.elementAddr j := rfl
@[simp] theorem soundOn_raiseFatal (k : FatalKind) (w : Word) : (s.raiseFatal k w).soundOn = s.soundOn := rfl

/-! ### `setReport` -/

@[simp] theorem v_setReport (r : Option Report) : (s.setReport r).v = s.v := rfl
@[simp] theorem i_setReport (r : Option Report) : (s.setReport r).i = s.i := rfl
@[simp] theorem pc_setReport (r : Option Report) : (s.setReport r).pc = s.pc := rfl
@[simp] theorem sp_setReport (r : Option Report) : (s.setReport r).sp = s.sp := rfl
@[simp] theorem stack_setReport (r : Option Report) : (s.setReport r).stack = s.stack := rfl
@[simp] theorem dt_setReport (r : Option Report) : (s.setReport r).dt = s.dt := rfl
@[simp] theorem st_setReport (r : Option Report) : (s.setReport r).st = s.st := rfl
@[simp] theorem fb_setReport (r : Option Report) : (s.setReport r).fb = s.fb := rfl
@[simp] theorem mem_setReport (r : Option Report) : (s.setReport r).mem = s.mem := rfl
@[simp] theorem mode_setReport (r : Option Report) : (s.setReport r).mode = s.mode := rfl
@[simp] theorem fault_setReport (r : Option Report) : (s.setReport r).fault = s.fault := rfl
@[simp] theorem params_setReport (r : Option Report) : (s.setReport r).params = s.params := rfl
@[simp] theorem inputs_setReport (r : Option Report) : (s.setReport r).inputs = s.inputs := rfl
@[simp] theorem schedule_setReport (r : Option Report) : (s.setReport r).schedule = s.schedule := rfl
@[simp] theorem freeCount_setReport (r : Option Report) : (s.setReport r).freeCount = s.freeCount := rfl
@[simp] theorem report_setReport (r : Option Report) : (s.setReport r).report = r := rfl
@[simp] theorem getV_setReport (r : Option Report) (q : Reg) : (s.setReport r).getV q = s.getV q := rfl
@[simp] theorem memRead_setReport (r : Option Report) (n : Nat) : (s.setReport r).memRead n = s.memRead n := rfl
@[simp] theorem pixel_setReport (r : Option Report) (x : Fin 64) (y : Fin 32) : (s.setReport r).pixel x y = s.pixel x y := rfl
@[simp] theorem elementAddr_setReport (r : Option Report) (k : Nat) : (s.setReport r).elementAddr k = s.elementAddr k := rfl
@[simp] theorem soundOn_setReport (r : Option Report) : (s.setReport r).soundOn = s.soundOn := rfl

/-! ### `present` -/

@[simp] theorem v_present (inp : Inputs) : (s.present inp).v = s.v := rfl
@[simp] theorem i_present (inp : Inputs) : (s.present inp).i = s.i := rfl
@[simp] theorem pc_present (inp : Inputs) : (s.present inp).pc = s.pc := rfl
@[simp] theorem sp_present (inp : Inputs) : (s.present inp).sp = s.sp := rfl
@[simp] theorem stack_present (inp : Inputs) : (s.present inp).stack = s.stack := rfl
@[simp] theorem dt_present (inp : Inputs) : (s.present inp).dt = s.dt := rfl
@[simp] theorem st_present (inp : Inputs) : (s.present inp).st = s.st := rfl
@[simp] theorem fb_present (inp : Inputs) : (s.present inp).fb = s.fb := rfl
@[simp] theorem mem_present (inp : Inputs) : (s.present inp).mem = s.mem := rfl
@[simp] theorem mode_present (inp : Inputs) : (s.present inp).mode = s.mode := rfl
@[simp] theorem fault_present (inp : Inputs) : (s.present inp).fault = s.fault := rfl
@[simp] theorem params_present (inp : Inputs) : (s.present inp).params = s.params := rfl
@[simp] theorem inputs_present (inp : Inputs) : (s.present inp).inputs = inp := rfl
@[simp] theorem schedule_present (inp : Inputs) : (s.present inp).schedule = s.schedule := rfl
@[simp] theorem freeCount_present (inp : Inputs) : (s.present inp).freeCount = s.freeCount := rfl
@[simp] theorem report_present (inp : Inputs) : (s.present inp).report = none := rfl
@[simp] theorem getV_present (inp : Inputs) (q : Reg) : (s.present inp).getV q = s.getV q := rfl
@[simp] theorem memRead_present (inp : Inputs) (n : Nat) : (s.present inp).memRead n = s.memRead n := rfl
@[simp] theorem pixel_present (inp : Inputs) (x : Fin 64) (y : Fin 32) : (s.present inp).pixel x y = s.pixel x y := rfl
@[simp] theorem elementAddr_present (inp : Inputs) (k : Nat) : (s.present inp).elementAddr k = s.elementAddr k := rfl
@[simp] theorem soundOn_present (inp : Inputs) : (s.present inp).soundOn = s.soundOn := rfl

/-! ### The register file -/

/-- A register reads what was last written to it, and no write reaches another register (R20). -/
theorem getV_setV (r q : Reg) (b : Byte) : (s.setV r b).getV q = if r = q then b else s.getV q := by
  simp [getV, Vector.getElem_set, Fin.ext_iff]

@[simp] theorem getV_setV_self (r : Reg) (b : Byte) : (s.setV r b).getV r = b := by simp [getV_setV]

theorem getV_setV_ne {r q : Reg} (h : r ≠ q) (b : Byte) : (s.setV r b).getV q = s.getV q := by simp [getV_setV, h]

@[simp] theorem getV_setRegs_ofFn (f : Reg → Byte) (q : Reg) : (s.setRegs (Vector.ofFn f)).getV q = f q := by
  simp [getV]

/-- The result stands in `x` unless `x` is VF, and VF holds the flag (R143). -/
theorem getV_setResultFlag (x q : Reg) (b : Byte) (c : Bool) :
    (s.setResultFlag x b c).getV q = if vf = q then flagByte c else if x = q then b else s.getV q := by
  simp [setResultFlag, getV_setV]

/-! ### The program counter -/

/-- `pc` always holds a 12-bit address after a write (R23). -/
@[simp] theorem toNat_pc_setPc (n : Nat) : (s.setPc n).pc.toNat = n % 4096 := by
  simp only [pc_setPc, BitVec.toNat_ofNat]
  omega

theorem skipIf_eq (c : Bool) : s.skipIf c = if c then s.setPc (s.pc.toNat + 2) else s := rfl

/-- The instruction address of a state whose `pc` was advanced by the fetch is the address of the fetch (R92, R208). -/
theorem instrAddr_advance : s.advance.instrAddr = BitVec.ofNat 12 s.pc.toNat := by
  apply BitVec.eq_of_toNat_eq
  have h2 : (2 : Addr).toNat = 2 := rfl
  simp only [instrAddr, advance, pc_setPc, BitVec.toNat_sub, BitVec.toNat_setWidth, BitVec.toNat_ofNat, h2]
  omega

end Sys2Proof.Machine.State
end

