-- ==== Sys2Proof/Laws/Memory.lean ====
section
/-! SUPPORT. The laws of the memory array (spec 20_memory.md R50, R51, R59): read after write, and every write keeps the canonical form. -/

namespace Sys2Proof.Machine

namespace Memory

variable (d : Nat → Byte)

theorem read_erase (m : Memory) (a b : Nat) : read d (erase m a) b = if a = b then d b else read d m b := by
  induction m with
  | nil => simp [erase, read]
  | cons c m ih =>
    simp only [erase, List.filter_cons] at ih ⊢
    by_cases hc : c.1 = a
    · by_cases hb : a = b <;> simp_all [read]
    · by_cases hb : a = b
      · have : c.1 ≠ b := by omega
        simp_all [read]
      · simp_all [read]

theorem read_insert {m : Memory} {a : Nat} (h : ∀ c ∈ m, c.1 ≠ a) (v : Byte) (b : Nat) :
    read d (insert a v m) b = if a = b then v else read d m b := by
  induction m with
  | nil => simp [insert, read]
  | cons c m ih =>
    have hc : c.1 ≠ a := h c (by simp)
    simp only [insert]
    split
    · by_cases hb : a = b <;> simp [read, hb]
    · have ih := ih (fun c' hc' => h c' (by simp [hc']))
      by_cases hb : a = b
      · have : c.1 ≠ b := by omega
        simp_all [read]
      · simp_all [read]

/-- A read after a write: the value written at its address, the old value everywhere else. -/
theorem read_write (m : Memory) (a b : Nat) (v : Byte) :
    read d (write d m a v) b = if a = b then v else read d m b := by
  unfold write
  split
  · rename_i hv
    rw [read_erase]
    split
    · rename_i hab
      rw [hv, hab]
    · rfl
  · rw [read_insert d (by simp [erase]), read_erase]
    split <;> rfl

/-! ### The canonical form -/

theorem wf_iff (m : Memory) :
    wf d m = true ↔ m.Pairwise (fun c c' => c.1 < c'.1) ∧ ∀ c ∈ m, c.1 < 4096 ∧ c.2 ≠ d c.1 := by
  simp [wf, List.all_eq_true]

theorem mem_insert {m : Memory} {a : Nat} {v : Byte} {c : Host.Cell} : c ∈ insert a v m ↔ c = (a, v) ∨ c ∈ m := by
  induction m with
  | nil => simp [insert]
  | cons c' m ih =>
    simp only [insert]
    split
    · simp
    · simp only [List.mem_cons, ih]
      tauto

theorem pairwise_insert {m : Memory} {a : Nat} (v : Byte) (hm : m.Pairwise (fun c c' => c.1 < c'.1))
    (ha : ∀ c ∈ m, c.1 ≠ a) : (insert a v m).Pairwise (fun c c' => c.1 < c'.1) := by
  induction m with
  | nil => simp [insert]
  | cons c m ih =>
    rw [List.pairwise_cons] at hm
    simp only [insert]
    split
    · rename_i hlt
      refine List.pairwise_cons.mpr ⟨?_, List.pairwise_cons.mpr hm⟩
      rintro c' hc'
      rcases List.mem_cons.mp hc' with rfl | hc'
      · exact hlt
      · exact lt_trans hlt (hm.1 c' hc')
    · rename_i hge
      refine List.pairwise_cons.mpr ⟨?_, ih hm.2 (fun c' hc' => ha c' (by simp [hc']))⟩
      intro c' hc'
      rcases mem_insert.mp hc' with rfl | hc'
      · have := ha c (by simp)
        show c.1 < a
        omega
      · exact hm.1 c' hc'

/-- The memory that lists nothing, which is that of `State.reset`, is in canonical form. -/
@[simp] theorem wf_nil : wf d [] = true := rfl

/-- A write inside the address space keeps the canonical form. -/
theorem wf_write {m : Memory} (h : wf d m = true) {a : Nat} (ha : a < 4096) (v : Byte) : wf d (write d m a v) = true := by
  rw [wf_iff] at h ⊢
  obtain ⟨hp, hm⟩ := h
  have he : (erase m a).Pairwise (fun c c' => c.1 < c'.1) := hp.filter _
  have hem : ∀ c ∈ erase m a, (c.1 < 4096 ∧ c.2 ≠ d c.1) ∧ c.1 ≠ a := by
    intro c hc
    have hc := List.mem_filter.mp hc
    exact ⟨hm c hc.1, by simpa using hc.2⟩
  unfold write
  split
  · exact ⟨he, fun c hc => (hem c hc).1⟩
  · rename_i hv
    refine ⟨pairwise_insert v he (fun c hc => (hem c hc).2), ?_⟩
    intro c hc
    rcases mem_insert.mp hc with rfl | hc
    · exact ⟨ha, hv⟩
    · exact (hem c hc).1

end Memory

/-! ### The accesses of the core -/

namespace State

variable (s : State)

/-- R51: a read after a one-byte write, addresses mod 4096. -/
theorem memRead_memWrite (a b : Nat) (v : Byte) :
    (s.memWrite a v).memRead b = if a % 4096 = b % 4096 then v else s.memRead b := by
  simp only [memRead, memWrite]
  exact Memory.read_write _ _ _ _ _

theorem memRead_congr {s t : State} (hm : t.mem = s.mem) (hp : t.params = s.params) (a : Nat) :
    t.memRead a = s.memRead a := by
  simp only [memRead, hm, hp]

theorem memRead_mod (a : Nat) : s.memRead (a % 4096) = s.memRead a := by simp [memRead]

/-- A run of one-byte writes changes only the memory list. -/
theorem memWriteList_eq (bs : List Byte) : ∀ (s : State) (a : Nat),
    s.memWriteList a bs = { s with mem := (s.memWriteList a bs).mem } := by
  induction bs with
  | nil => intro s a; rfl
  | cons b bs ih => intro s a; exact ih (s.memWrite a b) (a + 1)

/-- Every byte outside the run reads as before (R51). -/
theorem memRead_memWriteList_off (bs : List Byte) : ∀ (s : State) (a c : Nat),
    (∀ k < bs.length, (a + k) % 4096 ≠ c % 4096) → (s.memWriteList a bs).memRead c = s.memRead c := by
  induction bs with
  | nil => intros; rfl
  | cons b bs ih =>
    intro s a c h
    have h0 := h 0 (by simp)
    rw [memWriteList, ih, memRead_memWrite, if_neg (by simpa using h0)]
    intro k hk
    have := h (k + 1) (by simpa using hk)
    rwa [Nat.add_assoc, Nat.add_comm 1 k]

/-- Byte `k` of a run no longer than the memory reads back at its address (R51). -/
theorem memRead_memWriteList_at (bs : List Byte) : ∀ (s : State) (a k : Nat) (b : Byte),
    bs.length ≤ 4096 → bs[k]? = some b → (s.memWriteList a bs).memRead (a + k) = b := by
  induction bs with
  | nil => intro s a k b _ h; simp at h
  | cons b₀ bs ih =>
    intro s a k b hlen h
    simp only [List.length_cons] at hlen
    cases k with
    | zero =>
      rw [memWriteList, memRead_memWriteList_off, memRead_memWrite]
      · simpa using h
      · intro j hj
        omega
    | succ k =>
      rw [memWriteList, ← Nat.add_assoc, Nat.add_right_comm]
      exact ih _ _ _ _ (by omega) (by simpa using h)

/-- A run of writes keeps the canonical form of the memory. -/
theorem wf_memWriteList (bs : List Byte) : ∀ (s : State) (a : Nat), Memory.wf (memReset s.params) s.mem = true →
    Memory.wf (memReset s.params) (s.memWriteList a bs).mem = true := by
  induction bs with
  | nil => intro s a h; exact h
  | cons b bs ih =>
    intro s a h
    exact ih (s.memWrite a b) (a + 1) (Memory.wf_write _ h (Nat.mod_lt _ (by decide)) b)

@[simp] theorem length_memReadList (a n : Nat) : (s.memReadList a n).length = n := by simp [memReadList]

end State

end Sys2Proof.Machine
end

