-- ==== Sys2Proof/Laws/Ops.lean ====
section
/-! SUPPORT. One lemma per shared operation that says everything it can do: the run of writes, push, pop, the skip, the wait-step, and the transactions. -/

namespace Sys2Proof.Machine.State

variable (s : State)

/-! ### The run of writes -/

@[simp] theorem v_memWriteList (a : Nat) (bs : List Byte) : (s.memWriteList a bs).v = s.v :=
  congrArg (·.v) (memWriteList_eq bs s a)
@[simp] theorem i_memWriteList (a : Nat) (bs : List Byte) : (s.memWriteList a bs).i = s.i :=
  congrArg (·.i) (memWriteList_eq bs s a)
@[simp] theorem pc_memWriteList (a : Nat) (bs : List Byte) : (s.memWriteList a bs).pc = s.pc :=
  congrArg (·.pc) (memWriteList_eq bs s a)
@[simp] theorem sp_memWriteList (a : Nat) (bs : List Byte) : (s.memWriteList a bs).sp = s.sp :=
  congrArg (·.sp) (memWriteList_eq bs s a)
@[simp] theorem stack_memWriteList (a : Nat) (bs : List Byte) : (s.memWriteList a bs).stack = s.stack :=
  congrArg (·.stack) (memWriteList_eq bs s a)
@[simp] theorem dt_memWriteList (a : Nat) (bs : List Byte) : (s.memWriteList a bs).dt = s.dt :=
  congrArg (·.dt) (memWriteList_eq bs s a)
@[simp] theorem st_memWriteList (a : Nat) (bs : List Byte) : (s.memWriteList a bs).st = s.st :=
  congrArg (·.st) (memWriteList_eq bs s a)
@[simp] theorem fb_memWriteList (a : Nat) (bs : List Byte) : (s.memWriteList a bs).fb = s.fb :=
  congrArg (·.fb) (memWriteList_eq bs s a)
@[simp] theorem mode_memWriteList (a : Nat) (bs : List Byte) : (s.memWriteList a bs).mode = s.mode :=
  congrArg (·.mode) (memWriteList_eq bs s a)
@[simp] theorem fault_memWriteList (a : Nat) (bs : List Byte) : (s.memWriteList a bs).fault = s.fault :=
  congrArg (·.fault) (memWriteList_eq bs s a)
@[simp] theorem params_memWriteList (a : Nat) (bs : List Byte) : (s.memWriteList a bs).params = s.params :=
  congrArg (·.params) (memWriteList_eq bs s a)
@[simp] theorem inputs_memWriteList (a : Nat) (bs : List Byte) : (s.memWriteList a bs).inputs = s.inputs :=
  congrArg (·.inputs) (memWriteList_eq bs s a)
@[simp] theorem schedule_memWriteList (a : Nat) (bs : List Byte) : (s.memWriteList a bs).schedule = s.schedule :=
  congrArg (·.schedule) (memWriteList_eq bs s a)
@[simp] theorem freeCount_memWriteList (a : Nat) (bs : List Byte) : (s.memWriteList a bs).freeCount = s.freeCount :=
  congrArg (·.freeCount) (memWriteList_eq bs s a)
@[simp] theorem report_memWriteList (a : Nat) (bs : List Byte) : (s.memWriteList a bs).report = s.report :=
  congrArg (·.report) (memWriteList_eq bs s a)

@[simp] theorem getV_memWriteList (a : Nat) (bs : List Byte) (r : Reg) : (s.memWriteList a bs).getV r = s.getV r := by
  simp [getV]

@[simp] theorem pixel_memWriteList (a : Nat) (bs : List Byte) (x : Fin 64) (y : Fin 32) :
    (s.memWriteList a bs).pixel x y = s.pixel x y := by
  simp [pixel]

/-! ### The call stack (R25) -/

/-- A push on a stack with a free slot. -/
theorem push_of_lt (w : Word) (h : s.sp.val < 16) :
    s.push w = some (s.setStack ⟨s.sp.val + 1, by omega⟩ (s.stack.set s.sp.val w)) := by
  simp [push, h]

/-- A push on a full stack. -/
theorem push_of_full (w : Word) (h : s.sp.val = 16) : s.push w = none := by simp [push, h]

/-- A pop with an entry on the stack. -/
theorem pop_of_pos (h : 0 < s.sp.val) :
    s.pop = some (s.stack[s.sp.val - 1], s.setStack ⟨s.sp.val - 1, by omega⟩ s.stack) := by
  simp [pop, h]

/-- A pop on an empty stack. -/
theorem pop_of_empty (h : s.sp.val = 0) : s.pop = none := by simp [pop, h]

/-! ### The skip (R118) and the wait-step (R97) -/

/-- Taken, it adds 2 to the advanced `pc`; untaken, it leaves the state. -/
theorem skipIf_true : s.skipIf true = s.setPc (s.pc.toNat + 2) := rfl

theorem skipIf_false : s.skipIf false = s := rfl

theorem waitStep_some {k : Key} (h : s.inputs.keyPress = some k) (r : Reg) :
    s.waitStep r = (s.setV r (BitVec.ofNat 8 k.val)).setMode .running := by
  simp [waitStep, h]

theorem waitStep_none (h : s.inputs.keyPress = none) (r : Reg) : s.waitStep r = s := by simp [waitStep, h]

/-! ### The transactions -/

/-- Taking the next transaction changes the schedule and the count of free transactions, nothing else. -/
theorem takeTransaction_snd : s.takeTransaction.2 =
    { s with schedule := s.takeTransaction.2.schedule, freeCount := s.takeTransaction.2.freeCount } := by
  unfold takeTransaction
  split <;> rfl

/-- A scheduled transaction is the next one. -/
theorem takeTransaction_cons {t : Transaction} {rest : List Transaction} (h : s.schedule = t :: rest) :
    s.takeTransaction = (t, { s with schedule := rest }) := by
  simp [takeTransaction, h]

end Sys2Proof.Machine.State

namespace Sys2Proof.Machine

/-- A step is the next transaction, performed on the state without it. -/
theorem step_of_take {s s₁ : State} {t : Transaction} (h : s.takeTransaction = (t, s₁)) : step s = s₁.transact t := by
  simp [step, h]

/-- The core reads the same before and after a transaction is taken from the schedule. -/
theorem take_core {s s₁ : State} {t : Transaction} (h : s.takeTransaction = (t, s₁)) :
    s₁ = { s with schedule := s₁.schedule, freeCount := s₁.freeCount } := by
  have := s.takeTransaction_snd
  rwa [h] at this

/-- Taking a transaction leaves every element of the core, the parameters, the input lines and the report. -/
theorem take_fields {s s₁ : State} {t : Transaction} (h : s.takeTransaction = (t, s₁)) :
    s₁.v = s.v ∧ s₁.i = s.i ∧ s₁.pc = s.pc ∧ s₁.sp = s.sp ∧ s₁.stack = s.stack ∧ s₁.dt = s.dt ∧ s₁.st = s.st ∧
      s₁.fb = s.fb ∧ s₁.mem = s.mem ∧ s₁.mode = s.mode ∧ s₁.fault = s.fault ∧ s₁.params = s.params ∧
      s₁.inputs = s.inputs ∧ s₁.report = s.report := by
  rw [take_core h]
  simp

/-- The opcode that the fetch of a `Step` reads is the one in memory before the transaction was taken (R91). -/
theorem fetchWord_present {s s₁ : State} {t : Transaction} (h : s.takeTransaction = (t, s₁)) (inp : Inputs) :
    (s₁.present inp).fetchWord = s.fetchWord := by
  rw [take_core h]
  rfl

/-- A `Step` in `RUNNING` presents its inputs and runs one instruction (R90). -/
theorem step_running {s s₁ : State} {inp : Inputs} (h : s.takeTransaction = (.step inp, s₁)) (hm : s.mode = .running) :
    step s = (s₁.present inp).runInstruction := by
  rw [step_of_take h]
  simp [State.transact, State.coreStep, take_fields h, hm]

/-- A run of `n + 1` steps whose first step answers `t` is a run of `n` steps from `t`. -/
theorem run_succ {s t : State} (h : step s = .next t) (n : Nat) :
    Host.Core.run Sys2Proof.core (n + 1) s = Host.Core.run Sys2Proof.core n t := by
  have hs : Sys2Proof.core.step s = .next t := h
  exact (Host.Core.run.eq_2 Sys2Proof.core s n).trans (by rw [hs])

/-- One timer at one tick: down by 1, 0 stays 0 (R191). -/
theorem toNat_countDown (t : Byte) : (countDown t).toNat = t.toNat - 1 := by
  unfold countDown
  split
  · have h1 : (1 : Byte).toNat = 1 := rfl
    have := t.isLt
    rw [BitVec.toNat_sub, h1]
    omega
  · omega

/-- What a return does: halt on an empty stack, else pop (R110, R202). -/
theorem execRet_cases (s : State) :
    (s.sp.val = 0 ∧ execRet s = .next (s.raiseFatal .stackUnderflow 0x00EE)) ∨
    ∃ h : 0 < s.sp.val, execRet s =
      .next ((s.setStack ⟨s.sp.val - 1, by omega⟩ s.stack).setPc (s.stack[s.sp.val - 1]).toNat) := by
  by_cases h : 0 < s.sp.val
  · exact .inr ⟨h, by simp only [execRet, s.pop_of_pos h]⟩
  · exact .inl ⟨by omega, by simp only [execRet, s.pop_of_empty (by omega)]⟩

/-- What a call does: halt on a full stack, else push the advanced `pc` and jump (R112, R201). -/
theorem execCall_cases (nnn : Addr) (s : State) :
    (s.sp.val = 16 ∧ execCall nnn s = .next (s.raiseFatal .stackOverflow (encode (.call nnn)))) ∨
    ∃ h : s.sp.val < 16, execCall nnn s =
      .next ((s.setStack ⟨s.sp.val + 1, by omega⟩ (s.stack.set s.sp.val s.pc)).setPc nnn.toNat) := by
  by_cases h : s.sp.val < 16
  · exact .inr ⟨h, by simp only [execCall, s.push_of_lt _ h]⟩
  · have := s.sp.isLt
    exact .inl ⟨by omega, by simp only [execCall, s.push_of_full _ (by omega : s.sp.val = 16)]⟩

/-- An instruction never faults and is never refused (R205). -/
theorem exec_next (i : Instr) (s : State) : ∃ t, exec i s = .next t := by
  cases i <;> first
    | exact ⟨_, rfl⟩
    | (simp only [exec, execCall, execRet]; split <;> exact ⟨_, rfl⟩)

end Sys2Proof.Machine
end

