-- ==== Sys2Proof/Laws/Frame.lean ====
section
/-! SUPPORT. What each update of the state leaves unchanged, in the terms of `OnlyChanges` (Safety.lean). -/

namespace Sys2Proof.Machine

namespace OnlyChanges

variable {s t u : State} {c c' : Elem → Prop}

theorem same_refl (s : State) (e : Elem) : Same s s e := by cases e <;> simp [Same]

theorem same_trans {e : Elem} (h : Same s t e) (h' : Same t u e) : Same s u e := by
  cases e <;> simp_all [Same]

/-- Doing nothing changes nothing. -/
theorem refl (s : State) (c : Elem → Prop) : OnlyChanges s s c := fun e _ => same_refl s e

/-- A wider set of elements is a weaker claim. -/
theorem mono (h : OnlyChanges s t c) (hc : ∀ e, c e → c' e) : OnlyChanges s t c' := fun e he => h e (fun hce => he (hc e hce))

/-- Two updates one after the other change no more than both sets. -/
theorem trans (h : OnlyChanges s t c) (h' : OnlyChanges t u c) : OnlyChanges s u c :=
  fun e he => same_trans (h e he) (h' e he)

theorem setV (s : State) (r : Reg) (b : Byte) : OnlyChanges s (s.setV r b) (fun e => e = .reg r) := by
  intro e he
  cases e <;> simp_all [Same, State.getV_setV, eq_comm]

theorem setRegs (s : State) (w : Vector Byte 16) : OnlyChanges s (s.setRegs w)
    (fun e => ∃ r : Reg, w[r.val] ≠ s.getV r ∧ e = .reg r) := by
  intro e he
  cases e with
  | reg r => exact not_not.mp (fun h => he ⟨r, h, rfl⟩)
  | _ => simp [Same]

theorem setI (s : State) (a : Addr) : OnlyChanges s (s.setI a) (fun e => e = .addrReg) := by
  intro e he
  cases e <;> simp_all [Same]

theorem setDt (s : State) (b : Byte) : OnlyChanges s (s.setDt b) (fun e => e = .dt) := by
  intro e he
  cases e <;> simp_all [Same]

theorem setSt (s : State) (b : Byte) : OnlyChanges s (s.setSt b) (fun e => e = .st) := by
  intro e he
  cases e <;> simp_all [Same]

theorem setFb (s : State) (fb : Framebuffer) : OnlyChanges s (s.setFb fb) (fun e => ∃ x y, e = .pixel x y) := by
  intro e he
  cases e <;> simp_all [Same]

theorem setMode (s : State) (m : Mode) : OnlyChanges s (s.setMode m) (fun e => e = .mode) := by
  intro e he
  cases e <;> simp_all [Same]

theorem setPc (s : State) (n : Nat) : OnlyChanges s (s.setPc n) (fun e => e = .pc) := by
  intro e he
  cases e <;> simp_all [Same]

theorem setReport (s : State) (r : Option Report) : OnlyChanges s (s.setReport r) (fun e => e = .report) := by
  intro e he
  cases e <;> simp_all [Same]

theorem present (s : State) (inp : Inputs) : OnlyChanges s (s.present inp) (fun e => e = .inputs ∨ e = .report) := by
  intro e he
  cases e <;> simp_all [Same]

theorem raiseFatal (s : State) (k : FatalKind) (w : Word) :
    OnlyChanges s (s.raiseFatal k w) (fun e => e = .mode ∨ e = .fault) := by
  intro e he
  cases e <;> simp_all [Same]

/-- A pop changes only the stack pointer (R25). -/
theorem pop (s : State) (p : Fin 17) : OnlyChanges s (s.setStack p s.stack) (fun e => e = .sp) := by
  intro e he
  cases e <;> simp_all [Same]

/-- A push changes only the stack pointer and the slot it writes (R25). -/
theorem push (s : State) (p : Fin 17) (w : Word) (h : s.sp.val < 16) :
    OnlyChanges s (s.setStack p (s.stack.set s.sp.val w)) (fun e => e = .slot ⟨s.sp.val, h⟩ ∨ e = .sp) := by
  intro e he
  cases e with
  | slot j =>
    have hne : s.sp.val ≠ j.val := fun hj => he (.inl (by simp [hj]))
    simp only [Same, State.stack_setStack, Vector.getElem_set_ne _ _ hne]
  | _ => simp_all [Same]

/-- A taken or untaken skip changes at most `pc` (R118). -/
theorem skipIf (s : State) (b : Bool) : OnlyChanges s (s.skipIf b) (fun e => e = .pc) := by
  cases b
  · exact refl s _
  · exact setPc s _

/-- A flag-setting instruction changes at most its destination and VF (R143). -/
theorem setResultFlag (s : State) (x : Reg) (b : Byte) (f : Bool) :
    OnlyChanges s (s.setResultFlag x b f) (fun e => e = .reg x ∨ e = .reg vf) :=
  trans (mono (setV s x b) (fun _ => Or.inl)) (mono (setV _ vf (flagByte f)) (fun _ => Or.inr))

/-- A run of writes changes at most the bytes it writes (R51). -/
theorem memWriteList (s : State) (a : Nat) (bs : List Byte) : OnlyChanges s (s.memWriteList a bs)
    (fun e => ∃ k < bs.length, e = .byte ((a + k) % 4096)) := by
  intro e he
  cases e with
  | byte c =>
    intro hc
    refine State.memRead_memWriteList_off bs s a c (fun k hk h => he ⟨k, hk, ?_⟩)
    rw [h, Nat.mod_eq_of_lt hc]
  | _ => simp [Same]

/-- Taking a transaction changes only the schedule. -/
theorem take {s s₁ : State} {t : Transaction} (h : s.takeTransaction = (t, s₁)) :
    OnlyChanges s s₁ (fun e => e = .schedule) := by
  intro e he
  rw [take_core h]
  cases e <;> first | exact absurd rfl he | exact fun _ => rfl | rfl

end OnlyChanges

/-- The invariant depends on the parameters, the memory, `pc`, the stack slots, the mode and the fault record alone. -/
theorem State.Inv.congr {s t : State} (h : s.Inv) (h1 : t.params = s.params) (h2 : t.mem = s.mem)
    (h3 : t.pc.toNat < 4096) (h4 : t.stack = s.stack) (h5 : t.mode = s.mode) (h6 : t.fault = s.fault) : t.Inv :=
  { params_wf := h1 ▸ h.params_wf, mem_wf := by rw [h1, h2]; exact h.mem_wf, pc_lt := h3
    slot_lt := by rw [h4]; exact h.slot_lt, halted_iff := by rw [h5, h6]; exact h.halted_iff }

end Sys2Proof.Machine
end

