-- ==== Sys2Proof/Laws/Display.lean ====
section
/-! SUPPORT. The sprite draw (spec 44_display.md R172, R173): a draw is the plot of a list of distinct pixels, so every covered pixel is flipped once and the collision is the or over the covered pixels. -/

namespace Sys2Proof.Machine

namespace Framebuffer

/-- Toggling a pixel flips that pixel and no other (R172). -/
theorem pixel_toggle (fb : Framebuffer) (x x' : Fin 64) (y y' : Fin 32) :
    pixel (toggle fb x y) x' y' = if x = x' ∧ y = y' then !pixel fb x' y' else pixel fb x' y' := by
  unfold pixel toggle
  by_cases hy : y = y'
  · subst hy
    simp only [Vector.getElem_set_self, BitVec.getLsbD_xor, BitVec.getLsbD_shiftLeft, and_true]
    by_cases hx : x = x'
    · subst hx
      simp [x.isLt]
    · rw [if_neg hx]
      have hne : x.val ≠ x'.val := fun h => hx (Fin.ext h)
      by_cases hlt : x'.val < x.val
      · simp [hlt]
      · have h1 : x'.val - x.val ≠ 0 := by omega
        simp [h1]
  · have hne : y.val ≠ y'.val := fun h => hy (Fin.ext h)
    rw [if_neg (by simp [hy]), Vector.getElem_set_ne _ _ hne]

@[simp] theorem pixel_blank (x : Fin 64) (y : Fin 32) : pixel blank x y = false := by simp [pixel, blank]

end Framebuffer

namespace Canvas

/-- Plot a list of pixels one after the other. -/
def plotAll (ps : List (Fin 64 × Fin 32)) (c : Canvas) : Canvas := ps.foldl (fun c p => c.plot p.1 p.2) c

/-- The pixels of one sprite byte, column by column (R172). -/
def bytePixels (xc yc r : Nat) (b : Byte) : List (Fin 64 × Fin 32) :=
  ((List.range 8).filter (fun col => b.getLsbD (7 - col))).map (fun col => (column xc col, row yc r))

/-- The pixels of the sprite rows from `r` on, row by row (R172). -/
def rowPixels (xc yc : Nat) : Nat → List Byte → List (Fin 64 × Fin 32)
  | _, [] => []
  | r, b :: bs => bytePixels xc yc r b ++ rowPixels xc yc (r + 1) bs

theorem plotAll_append (ps qs : List (Fin 64 × Fin 32)) (c : Canvas) :
    plotAll (ps ++ qs) c = plotAll qs (plotAll ps c) := List.foldl_append

theorem foldl_filter_plot (xc yc r : Nat) (b : Byte) : ∀ (l : List Nat) (c : Canvas),
    l.foldl (fun c col => if b.getLsbD (7 - col) then c.plot (column xc col) (row yc r) else c) c =
      plotAll ((l.filter (fun col => b.getLsbD (7 - col))).map (fun col => (column xc col, row yc r))) c := by
  intro l
  induction l with
  | nil => intro c; rfl
  | cons k l ih =>
    intro c
    rw [List.foldl_cons, ih, List.filter_cons]
    split <;> rfl

theorem plotByte_eq (c : Canvas) (xc yc r : Nat) (b : Byte) :
    c.plotByte xc yc r b = plotAll (bytePixels xc yc r b) c :=
  foldl_filter_plot xc yc r b (List.range 8) c

theorem plotRows_eq (xc yc : Nat) (bs : List Byte) : ∀ (r : Nat) (c : Canvas),
    plotRows xc yc r bs c = plotAll (rowPixels xc yc r bs) c := by
  induction bs with
  | nil => intro r c; rfl
  | cons b bs ih => intro r c; rw [plotRows, ih, rowPixels, plotAll_append, plotByte_eq]

/-- Plotting distinct pixels flips exactly those pixels, and reports a collision exactly when one of them was set (R173). -/
theorem plotAll_spec (ps : List (Fin 64 × Fin 32)) : ∀ c : Canvas, ps.Nodup →
    (∀ x y, Framebuffer.pixel (plotAll ps c).1 x y = (Framebuffer.pixel c.1 x y ^^ decide ((x, y) ∈ ps))) ∧
    ((plotAll ps c).2 = true ↔ c.2 = true ∨ ∃ p ∈ ps, Framebuffer.pixel c.1 p.1 p.2 = true) := by
  induction ps with
  | nil => intro c _; simp [plotAll]
  | cons p ps ih =>
    intro c h
    obtain ⟨hp, hnd⟩ := List.nodup_cons.mp h
    obtain ⟨ih1, ih2⟩ := ih (c.plot p.1 p.2) hnd
    have hstep : plotAll (p :: ps) c = plotAll ps (c.plot p.1 p.2) := rfl
    rw [hstep]
    constructor
    · intro x y
      rw [ih1, plot, Framebuffer.pixel_toggle]
      by_cases hxy : p = (x, y)
      · subst hxy
        simp [hp]
      · have h1 : ¬ (p.1 = x ∧ p.2 = y) := fun ⟨hx, hy⟩ => hxy (Prod.ext hx hy)
        have h2 : ¬ ((x, y) = p) := fun e => hxy e.symm
        rw [if_neg h1]
        simp [h2]
    · rw [ih2]
      have hpix : ∀ q ∈ ps, Framebuffer.pixel (c.plot p.1 p.2).1 q.1 q.2 = Framebuffer.pixel c.1 q.1 q.2 := by
        intro q hq
        rw [plot, Framebuffer.pixel_toggle, if_neg]
        rintro ⟨hx, hy⟩
        exact hp (by rwa [show p = q from Prod.ext hx hy])
      have hhit : (c.plot p.1 p.2).2 = (c.2 || Framebuffer.pixel c.1 p.1 p.2) := rfl
      simp only [hhit, Bool.or_eq_true, List.mem_cons, exists_eq_or_imp, or_assoc]
      refine or_congr Iff.rfl (or_congr Iff.rfl ⟨?_, ?_⟩)
      · rintro ⟨q, hq, h⟩
        exact ⟨q, hq, by rwa [← hpix q hq]⟩
      · rintro ⟨q, hq, h⟩
        exact ⟨q, hq, by rwa [hpix q hq]⟩

/-! ### The pixels of a sprite are distinct -/

theorem column_injOn {xc k k' : Nat} (hk : k < 8) (hk' : k' < 8) (h : column xc k = column xc k') : k = k' := by
  have h := congrArg Fin.val h
  simp only [column] at h
  omega

theorem row_injOn {yc r r' : Nat} (hr : r < 32) (hr' : r' < 32) (h : row yc r = row yc r') : r = r' := by
  have h := congrArg Fin.val h
  simp only [row] at h
  omega

theorem mem_bytePixels {xc yc r : Nat} {b : Byte} {p : Fin 64 × Fin 32} :
    p ∈ bytePixels xc yc r b ↔ ∃ col < 8, b.getLsbD (7 - col) = true ∧ p = (column xc col, row yc r) := by
  simp only [bytePixels, List.mem_map, List.mem_filter, List.mem_range]
  constructor
  · rintro ⟨col, ⟨h1, h2⟩, h3⟩
    exact ⟨col, h1, h2, h3.symm⟩
  · rintro ⟨col, h1, h2, h3⟩
    exact ⟨col, ⟨h1, h2⟩, h3.symm⟩

theorem mem_rowPixels {xc yc : Nat} {p : Fin 64 × Fin 32} (bs : List Byte) : ∀ r : Nat,
    p ∈ rowPixels xc yc r bs ↔
      ∃ k b, bs[k]? = some b ∧ ∃ col < 8, b.getLsbD (7 - col) = true ∧ p = (column xc col, row yc (r + k)) := by
  induction bs with
  | nil => intro r; simp [rowPixels]
  | cons b bs ih =>
    intro r
    rw [rowPixels, List.mem_append, mem_bytePixels, ih]
    constructor
    · rintro (h | ⟨k, b', hk, col, h1, h2, h3⟩)
      · exact ⟨0, b, rfl, h⟩
      · exact ⟨k + 1, b', hk, col, h1, h2, by rwa [show r + (k + 1) = r + 1 + k by omega]⟩
    · rintro ⟨k, b', hk, col, h1, h2, h3⟩
      cases k with
      | zero =>
        obtain rfl : b = b' := by simpa using hk
        exact Or.inl ⟨col, h1, h2, h3⟩
      | succ k => exact Or.inr ⟨k, b', by simpa using hk, col, h1, h2, by rwa [show r + 1 + k = r + (k + 1) by omega]⟩

theorem nodup_bytePixels (xc yc r : Nat) (b : Byte) : (bytePixels xc yc r b).Nodup := by
  unfold bytePixels
  rw [List.nodup_map_iff_inj_on (List.nodup_range.filter _)]
  intro k hk k' hk' h
  simp only [List.mem_filter, List.mem_range] at hk hk'
  exact column_injOn hk.1 hk'.1 (Prod.mk.inj h).1

/-- The at most 15 rows of a sprite are distinct rows of the framebuffer, and so are its columns (R172(e)). -/
theorem nodup_rowPixels (xc yc : Nat) (bs : List Byte) : ∀ r : Nat, r + bs.length ≤ 32 →
    (rowPixels xc yc r bs).Nodup := by
  induction bs with
  | nil => intro r _; simp [rowPixels]
  | cons b bs ih =>
    intro r h
    simp only [List.length_cons] at h
    refine List.nodup_append.mpr ⟨nodup_bytePixels xc yc r b, ih (r + 1) (by omega), ?_⟩
    rintro p hp q hq rfl
    obtain ⟨col, _, _, h1⟩ := mem_bytePixels.mp hp
    obtain ⟨k, b', hk, col', _, _, h2⟩ := (mem_rowPixels bs _).mp hq
    have hlt : k < bs.length := (List.getElem?_eq_some_iff.mp hk).1
    have := row_injOn (by omega) (by omega) ((Prod.mk.inj (h1.symm.trans h2)).2)
    omega

/-- What a draw of at most 32 sprite rows does, in one lemma (R172, R173). -/
theorem plotRows_spec (xc yc : Nat) (bs : List Byte) (fb : Framebuffer) (h : bs.length ≤ 32) :
    (∀ x y, Framebuffer.pixel (plotRows xc yc 0 bs (fb, false)).1 x y =
      (Framebuffer.pixel fb x y ^^ decide ((x, y) ∈ rowPixels xc yc 0 bs))) ∧
    ((plotRows xc yc 0 bs (fb, false)).2 = true ↔
      ∃ x y, (x, y) ∈ rowPixels xc yc 0 bs ∧ Framebuffer.pixel fb x y = true) := by
  rw [plotRows_eq]
  obtain ⟨h1, h2⟩ := plotAll_spec (rowPixels xc yc 0 bs) (fb, false) (nodup_rowPixels xc yc bs 0 (by omega))
  refine ⟨h1, h2.trans ?_⟩
  simp

/-- The pixels of a draw from memory are those that `spriteSets` names (Safety.lean). -/
theorem mem_rowPixels_iff_spriteSets (s : State) (xc yc n : Nat) (px : Fin 64) (py : Fin 32) :
    (px, py) ∈ rowPixels xc yc 0 (s.memReadList (s.elementAddr 0) n) ↔ spriteSets s xc yc n px py := by
  have haddr : ∀ r, s.memRead (s.elementAddr 0 + r) = s.memRead (s.elementAddr r) := by
    intro r
    rw [← s.memRead_mod (s.elementAddr 0 + r)]
    simp [State.elementAddr]
  rw [mem_rowPixels]
  simp only [State.memReadList, spriteSets]
  constructor
  · rintro ⟨k, b, hk, col, h1, h2, h3⟩
    obtain ⟨hlt, hb⟩ := List.getElem?_eq_some_iff.mp hk
    simp only [List.length_map, List.length_range] at hlt
    simp only [List.getElem_map, List.getElem_range] at hb
    obtain ⟨hx, hy⟩ := Prod.mk.inj h3
    refine ⟨k, hlt, col, h1, by rw [← haddr, hb]; exact h2, by rw [hx]; rfl, by rw [hy, Nat.zero_add]; rfl⟩
  · rintro ⟨r, hr, col, h1, h2, h3, h4⟩
    refine ⟨r, s.memRead (s.elementAddr 0 + r), by simp [hr], col, h1, by rwa [haddr], ?_⟩
    exact Prod.ext (Fin.ext h3) (Fin.ext (by rw [Nat.zero_add]; exact h4))

end Canvas

end Sys2Proof.Machine
end

