-- ==== Sys2Proof/Laws/Encoding.lean ====
section
/-! SUPPORT. The fields of an encoded word are the operands it was made of (spec R71, R80), and every instruction is well formed. -/

namespace Sys2Proof

open Encode

/-! ### The fields of each format -/

@[simp] theorem Decode.cls_fmtNNN (c : BitVec 4) (a : Addr) : Decode.cls (fmtNNN c a) = c.toNat :=
  congrArg BitVec.toNat (BitVec.extractLsb'_append_eq_left (a := c) (b := a))

@[simp] theorem Decode.nnn_fmtNNN (c : BitVec 4) (a : Addr) : Decode.nnn (fmtNNN c a) = a :=
  BitVec.extractLsb'_append_eq_right (a := c) (b := a)

theorem extract_class_append (c x : BitVec 4) (k : Byte) : (c ++ x ++ k : Word).extractLsb' 12 4 = c :=
  (BitVec.extractLsb'_append_eq_of_le (xhi := c ++ x) (xlo := k) (by decide)).trans
    (BitVec.extractLsb'_append_eq_left (a := c) (b := x))

theorem extract_x_append (c x : BitVec 4) (k : Byte) : (c ++ x ++ k : Word).extractLsb' 8 4 = x :=
  (BitVec.extractLsb'_append_eq_of_le (xhi := c ++ x) (xlo := k) (by decide)).trans
    (BitVec.extractLsb'_append_eq_right (a := c) (b := x))

@[simp] theorem Decode.cls_fmtXKK (c : BitVec 4) (x : Reg) (k : Byte) : Decode.cls (fmtXKK c x k) = c.toNat :=
  congrArg BitVec.toNat (extract_class_append c (nibble x) k)

@[simp] theorem Decode.x_fmtXKK (c : BitVec 4) (x : Reg) (k : Byte) : Decode.x (fmtXKK c x k) = x :=
  congrArg BitVec.toFin (extract_x_append c (nibble x) k)

@[simp] theorem Decode.kk_fmtXKK (c : BitVec 4) (x : Reg) (k : Byte) : Decode.kk (fmtXKK c x k) = k :=
  BitVec.extractLsb'_append_eq_right (a := c ++ nibble x) (b := k)

theorem fmtXFF_eq_fmtXKK : fmtXFF = fmtXKK := rfl

/-- A format XYN word is a format XKK word whose immediate is `y : n`. -/
theorem fmtXYN_eq_fmtXKK (c : BitVec 4) (x y : Reg) (n : Fin 16) :
    fmtXYN c x y n = fmtXKK c x (nibble y ++ nibble n) := by
  unfold fmtXYN fmtXKK
  simpa using BitVec.append_assoc (x₁ := c ++ nibble x) (x₂ := nibble y) (x₃ := nibble n)

@[simp] theorem Decode.cls_fmtXYN (c : BitVec 4) (x y : Reg) (n : Fin 16) : Decode.cls (fmtXYN c x y n) = c.toNat := by
  rw [fmtXYN_eq_fmtXKK, Decode.cls_fmtXKK]

@[simp] theorem Decode.x_fmtXYN (c : BitVec 4) (x y : Reg) (n : Fin 16) : Decode.x (fmtXYN c x y n) = x := by
  rw [fmtXYN_eq_fmtXKK, Decode.x_fmtXKK]

@[simp] theorem Decode.y_fmtXYN (c : BitVec 4) (x y : Reg) (n : Fin 16) : Decode.y (fmtXYN c x y n) = y :=
  congrArg BitVec.toFin ((BitVec.extractLsb'_append_eq_of_le (xhi := c ++ nibble x ++ nibble y) (xlo := nibble n)
    (by decide)).trans (BitVec.extractLsb'_append_eq_right (a := c ++ nibble x) (b := nibble y)))

@[simp] theorem Decode.n_fmtXYN (c : BitVec 4) (x y : Reg) (n : Fin 16) : Decode.n (fmtXYN c x y n) = n :=
  congrArg BitVec.toFin (BitVec.extractLsb'_append_eq_right (a := c ++ nibble x ++ nibble y) (b := nibble n))

@[simp] theorem Decode.cls_fmtXFF (c : BitVec 4) (x : Reg) (k : Byte) : Decode.cls (fmtXFF c x k) = c.toNat :=
  Decode.cls_fmtXKK c x k

@[simp] theorem Decode.x_fmtXFF (c : BitVec 4) (x : Reg) (k : Byte) : Decode.x (fmtXFF c x k) = x :=
  Decode.x_fmtXKK c x k

@[simp] theorem Decode.kk_fmtXFF (c : BitVec 4) (x : Reg) (k : Byte) : Decode.kk (fmtXFF c x k) = k :=
  Decode.kk_fmtXKK c x k

/-! ### A word is made of its fields -/

/-- `op = class : nnn` (R71). -/
theorem word_eq_fmtNNN (w : Word) : w = fmtNNN (w.extractLsb' 12 4) (Decode.nnn w) := by
  unfold fmtNNN Decode.nnn
  apply BitVec.eq_of_getElem_eq
  intro k hk
  have h := BitVec.getElem_append (x := w.extractLsb' 12 4) (y := w.extractLsb' 0 12) (i := k) (by omega)
  refine Eq.trans ?_ h.symm
  split
  · simp [BitVec.getLsbD_eq_getElem hk]
  · rw [BitVec.getElem_extractLsb', Nat.add_sub_cancel' (by omega), BitVec.getLsbD_eq_getElem hk]

/-- `op = class : x : kk` (R71). -/
theorem word_eq_fmtXKK (w : Word) : w = fmtXKK (w.extractLsb' 12 4) (Decode.x w) (Decode.kk w) := by
  unfold fmtXKK Decode.x Decode.kk nibble
  apply BitVec.eq_of_getElem_eq
  intro k hk
  have h := BitVec.getElem_append (x := w.extractLsb' 12 4 ++ w.extractLsb' 8 4) (y := w.extractLsb' 0 8) (i := k) (by omega)
  refine Eq.trans ?_ h.symm
  split
  · simp [BitVec.getLsbD_eq_getElem hk]
  · rw [BitVec.getElem_append]
    split
    · rw [BitVec.getElem_extractLsb', Nat.add_sub_cancel' (by omega), BitVec.getLsbD_eq_getElem hk]
    · rw [BitVec.getElem_extractLsb', show 12 + (k - 8 - 4) = k by omega, BitVec.getLsbD_eq_getElem hk]

/-- `kk = y : n` (R71). -/
theorem kk_eq_append (w : Word) : Decode.kk w = (nibble (Decode.y w) ++ nibble (Decode.n w) : Byte) := by
  unfold Decode.kk Decode.y Decode.n nibble
  apply BitVec.eq_of_getElem_eq
  intro k hk
  have h := BitVec.getElem_append (x := w.extractLsb' 4 4) (y := w.extractLsb' 0 4) (i := k) (by omega)
  refine Eq.trans ?_ h.symm
  split
  · simp
  · rw [BitVec.getElem_extractLsb', BitVec.getElem_extractLsb', Nat.add_sub_cancel' (by omega), Nat.zero_add]

/-- `op = class : x : y : n` (R71). -/
theorem word_eq_fmtXYN (w : Word) : w = fmtXYN (w.extractLsb' 12 4) (Decode.x w) (Decode.y w) (Decode.n w) := by
  rw [fmtXYN_eq_fmtXKK, ← kk_eq_append]
  exact word_eq_fmtXKK w

/-! ### Bytes and words -/

@[simp] theorem wordOfBytes_bytesOfWord (w : Word) :
    wordOfBytes (w.extractLsb' 8 8) (w.extractLsb' 0 8) = w := by
  unfold wordOfBytes
  apply BitVec.eq_of_getElem_eq
  intro k hk
  have h := BitVec.getElem_append (x := w.extractLsb' 8 8) (y := w.extractLsb' 0 8) (i := k) (by omega)
  refine h.trans ?_
  split
  · simp [BitVec.getLsbD_eq_getElem hk]
  · rw [BitVec.getElem_extractLsb', Nat.add_sub_cancel' (by omega), BitVec.getLsbD_eq_getElem hk]

theorem toNat_wordOfBytes (hi lo : Byte) : (wordOfBytes hi lo).toNat = 256 * hi.toNat + lo.toNat := by
  show (hi ++ lo).toNat = _
  rw [BitVec.toNat_append, ← Nat.shiftLeft_add_eq_or_of_lt lo.isLt, Nat.shiftLeft_eq]
  omega

end Sys2Proof
end

