-- ==== Sys2Proof/Laws/PerInstr.lean ====
section
/-! SUPPORT. The per-instruction family `RoundTrip`: decoding the encoded word of the instruction gives it back, and the instruction is well formed (spec R72, R74, R80). -/

namespace Sys2Proof.Laws.RoundTrip

/-- Decoding the word of `i` gives `i`, and the operands of `i` stay off the fixed bits of its row. -/
def Statement (i : Instr) : Prop := decodeWord (encode i) = .ok i ∧ i.wellFormed = true

/-! ### The operand fields of each format stay off the mask -/

theorem nnn_off_mask (a : Addr) : a.setWidth 16 &&& (0xF000 : Word) = 0 := by
  apply BitVec.eq_of_getLsbD_eq
  intro k hk
  simp only [BitVec.getLsbD_and, BitVec.getLsbD_setWidth]
  interval_cases k <;> simp

theorem xkk_off_mask (x : Reg) (k : Byte) :
    (((nibble x).setWidth 16 <<< 8) ||| k.setWidth 16) &&& (0xF000 : Word) = 0 := by
  apply BitVec.eq_of_getLsbD_eq
  intro j hj
  simp only [BitVec.getLsbD_and, BitVec.getLsbD_or, BitVec.getLsbD_shiftLeft, BitVec.getLsbD_setWidth]
  interval_cases j <;> simp

theorem xyf_off_mask (x y : Reg) :
    (((nibble x).setWidth 16 <<< 8) ||| ((nibble y).setWidth 16 <<< 4)) &&& (0xF00F : Word) = 0 := by
  apply BitVec.eq_of_getLsbD_eq
  intro j hj
  simp only [BitVec.getLsbD_and, BitVec.getLsbD_or, BitVec.getLsbD_shiftLeft, BitVec.getLsbD_setWidth]
  interval_cases j <;> simp

theorem xyn_off_mask (x y : Reg) (n : Fin 16) :
    (((nibble x).setWidth 16 <<< 8) ||| ((nibble y).setWidth 16 <<< 4) ||| (nibble n).setWidth 16) &&& (0xF000 : Word)
      = 0 := by
  apply BitVec.eq_of_getLsbD_eq
  intro j hj
  simp only [BitVec.getLsbD_and, BitVec.getLsbD_or, BitVec.getLsbD_shiftLeft, BitVec.getLsbD_setWidth]
  interval_cases j <;> simp

theorem xff_off_mask (x : Reg) : ((nibble x).setWidth 16 <<< 8) &&& (0xF0FF : Word) = 0 := by
  apply BitVec.eq_of_getLsbD_eq
  intro j hj
  simp only [BitVec.getLsbD_and, BitVec.getLsbD_shiftLeft, BitVec.getLsbD_setWidth]
  interval_cases j <;> simp

/-! ### One lemma per instruction -/

theorem cls : Statement (.cls) :=
  ⟨by decide, by decide⟩

theorem ret : Statement (.ret) :=
  ⟨by decide, by decide⟩

theorem jp (nnn : Addr) : Statement (.jp nnn) :=
  ⟨by simp [decodeWord, encode], beq_iff_eq.mpr (nnn_off_mask nnn)⟩

theorem call (nnn : Addr) : Statement (.call nnn) :=
  ⟨by simp [decodeWord, encode], beq_iff_eq.mpr (nnn_off_mask nnn)⟩

theorem seImm (x : Reg) (kk : Byte) : Statement (.seImm x kk) :=
  ⟨by simp [decodeWord, encode], beq_iff_eq.mpr (xkk_off_mask x kk)⟩

theorem sneImm (x : Reg) (kk : Byte) : Statement (.sneImm x kk) :=
  ⟨by simp [decodeWord, encode], beq_iff_eq.mpr (xkk_off_mask x kk)⟩

theorem seReg (x y : Reg) : Statement (.seReg x y) :=
  ⟨by simp [decodeWord, encode, Decode.class5], beq_iff_eq.mpr (xyf_off_mask x y)⟩

theorem ldImm (x : Reg) (kk : Byte) : Statement (.ldImm x kk) :=
  ⟨by simp [decodeWord, encode], beq_iff_eq.mpr (xkk_off_mask x kk)⟩

theorem addImm (x : Reg) (kk : Byte) : Statement (.addImm x kk) :=
  ⟨by simp [decodeWord, encode], beq_iff_eq.mpr (xkk_off_mask x kk)⟩

theorem ldReg (x y : Reg) : Statement (.ldReg x y) :=
  ⟨by simp [decodeWord, encode, Decode.class8], beq_iff_eq.mpr (xyf_off_mask x y)⟩

theorem or (x y : Reg) : Statement (.or x y) :=
  ⟨by simp [decodeWord, encode, Decode.class8], beq_iff_eq.mpr (xyf_off_mask x y)⟩

theorem and (x y : Reg) : Statement (.and x y) :=
  ⟨by simp [decodeWord, encode, Decode.class8], beq_iff_eq.mpr (xyf_off_mask x y)⟩

theorem xor (x y : Reg) : Statement (.xor x y) :=
  ⟨by simp [decodeWord, encode, Decode.class8], beq_iff_eq.mpr (xyf_off_mask x y)⟩

theorem addReg (x y : Reg) : Statement (.addReg x y) :=
  ⟨by simp [decodeWord, encode, Decode.class8], beq_iff_eq.mpr (xyf_off_mask x y)⟩

theorem sub (x y : Reg) : Statement (.sub x y) :=
  ⟨by simp [decodeWord, encode, Decode.class8], beq_iff_eq.mpr (xyf_off_mask x y)⟩

theorem shr (x y : Reg) : Statement (.shr x y) :=
  ⟨by simp [decodeWord, encode, Decode.class8], beq_iff_eq.mpr (xyf_off_mask x y)⟩

theorem subn (x y : Reg) : Statement (.subn x y) :=
  ⟨by simp [decodeWord, encode, Decode.class8], beq_iff_eq.mpr (xyf_off_mask x y)⟩

theorem shl (x y : Reg) : Statement (.shl x y) :=
  ⟨by simp [decodeWord, encode, Decode.class8], beq_iff_eq.mpr (xyf_off_mask x y)⟩

theorem sneReg (x y : Reg) : Statement (.sneReg x y) :=
  ⟨by simp [decodeWord, encode, Decode.class9], beq_iff_eq.mpr (xyf_off_mask x y)⟩

theorem ldI (nnn : Addr) : Statement (.ldI nnn) :=
  ⟨by simp [decodeWord, encode], beq_iff_eq.mpr (nnn_off_mask nnn)⟩

theorem jpV0 (nnn : Addr) : Statement (.jpV0 nnn) :=
  ⟨by simp [decodeWord, encode], beq_iff_eq.mpr (nnn_off_mask nnn)⟩

theorem rnd (x : Reg) (kk : Byte) : Statement (.rnd x kk) :=
  ⟨by simp [decodeWord, encode], beq_iff_eq.mpr (xkk_off_mask x kk)⟩

theorem drw (x y : Reg) (n : Fin 16) : Statement (.drw x y n) :=
  ⟨by simp [decodeWord, encode], beq_iff_eq.mpr (xyn_off_mask x y n)⟩

theorem skp (x : Reg) : Statement (.skp x) :=
  ⟨by simp [decodeWord, encode, Decode.classE], beq_iff_eq.mpr (xff_off_mask x)⟩

theorem sknp (x : Reg) : Statement (.sknp x) :=
  ⟨by simp [decodeWord, encode, Decode.classE], beq_iff_eq.mpr (xff_off_mask x)⟩

theorem ldVxDt (x : Reg) : Statement (.ldVxDt x) :=
  ⟨by simp [decodeWord, encode, Decode.classF], beq_iff_eq.mpr (xff_off_mask x)⟩

theorem ldVxK (x : Reg) : Statement (.ldVxK x) :=
  ⟨by simp [decodeWord, encode, Decode.classF], beq_iff_eq.mpr (xff_off_mask x)⟩

theorem ldDtVx (x : Reg) : Statement (.ldDtVx x) :=
  ⟨by simp [decodeWord, encode, Decode.classF], beq_iff_eq.mpr (xff_off_mask x)⟩

theorem ldStVx (x : Reg) : Statement (.ldStVx x) :=
  ⟨by simp [decodeWord, encode, Decode.classF], beq_iff_eq.mpr (xff_off_mask x)⟩

theorem addIVx (x : Reg) : Statement (.addIVx x) :=
  ⟨by simp [decodeWord, encode, Decode.classF], beq_iff_eq.mpr (xff_off_mask x)⟩

theorem ldFVx (x : Reg) : Statement (.ldFVx x) :=
  ⟨by simp [decodeWord, encode, Decode.classF], beq_iff_eq.mpr (xff_off_mask x)⟩

theorem ldBVx (x : Reg) : Statement (.ldBVx x) :=
  ⟨by simp [decodeWord, encode, Decode.classF], beq_iff_eq.mpr (xff_off_mask x)⟩

theorem ldMemVx (x : Reg) : Statement (.ldMemVx x) :=
  ⟨by simp [decodeWord, encode, Decode.classF], beq_iff_eq.mpr (xff_off_mask x)⟩

theorem ldVxMem (x : Reg) : Statement (.ldVxMem x) :=
  ⟨by simp [decodeWord, encode, Decode.classF], beq_iff_eq.mpr (xff_off_mask x)⟩

end Sys2Proof.Laws.RoundTrip
end

