-- ==== Sys2Proof/Tests/Slice0.lean ====
section
/-! SUPPORT. The model's own tests: ill-formed terms that the checks refuse, words written out from the patterns of R75, one step on small states (the expected values are those of spec/95_test_vectors.md, whose id stands in each docstring), and for every statement with hypotheses a state and operands that meet them. -/

namespace Sys2Proof.Tests

open Sys2Proof Sys2Proof.Machine

/-! ### Well-formedness -/

/-- R76: three words beside the opcode map are refused; T-E-4, T-E-8, T-E-12. -/
theorem test_ill_formed_words_refused :
    wordWellFormed 0x01E0 = false ∧ wordWellFormed 0x8AB8 = false ∧ wordWellFormed 0x5121 = false := by decide

/-- R75: words of the map are accepted; T-E-1, T-E-9, T-E-17. -/
theorem test_well_formed_words_accepted :
    wordWellFormed 0x00E0 = true ∧ wordWellFormed 0x8ABE = true ∧ wordWellFormed 0xF165 = true := by decide

/-- R9: a font that reaches past 0x1FF is refused, one that ends at 0x1FF is accepted. -/
theorem test_ill_formed_params_refused :
    ({ defaultParams with fontBase := 0x1B1 } : Params).wellFormed = false ∧
    ({ defaultParams with fontBase := 0x1B0 } : Params).wellFormed = true := by decide

/-- R62, S11: an image of 3585 bytes is refused, one of 3584 bytes is accepted. -/
theorem test_ill_formed_image_refused :
    imageWellFormed (List.replicate 3585 0xAA) = false ∧ imageWellFormed (List.replicate 3584 0xAA) = true := by
  rw [imageWellFormed, imageWellFormed, List.length_replicate, List.length_replicate]
  decide

/-- The canonical form of memory refuses an entry that equals the reset content, a falling pair of addresses, and an address
outside the address space. -/
theorem test_ill_formed_memory_refused :
    Memory.wf (memReset defaultParams) [(0x000, 0xF0)] = false ∧
    Memory.wf (memReset defaultParams) [(0x301, 0x01), (0x300, 0x01)] = false ∧
    Memory.wf (memReset defaultParams) [(0x1000, 0x01)] = false ∧
    Memory.wf (memReset defaultParams) [(0x300, 0x01), (0xFFF, 0x01)] = true := by decide

/-! ### Decoding: one word per row, written out from its pattern in R75 -/

/-- Control transfer: `00EE`, `1nnn`, `2nnn`, `3xkk`, `4xkk`, `5xy0`, `9xy0`, `Bnnn`. -/
theorem test_decode_control :
    decodeWord 0b0000000011101110 = .ok .ret ∧
    decodeWord 0b0001101010111100 = .ok (.jp 0xABC) ∧
    decodeWord 0b0010000100100011 = .ok (.call 0x123) ∧
    decodeWord 0b0011101001000010 = .ok (.seImm 0xA 0x42) ∧
    decodeWord 0b0100101001000010 = .ok (.sneImm 0xA 0x42) ∧
    decodeWord 0b0101000100100000 = .ok (.seReg 1 2) ∧
    decodeWord 0b1001000100100000 = .ok (.sneReg 1 2) ∧
    decodeWord 0b1011111111111110 = .ok (.jpV0 0xFFE) := by decide

/-- Register load, arithmetic, logic, random: `6xkk`, `7xkk`, `8xy0` to `8xyE`, `Cxkk`. -/
theorem test_decode_alu :
    decodeWord 0b0110101001111111 = .ok (.ldImm 0xA 0x7F) ∧
    decodeWord 0b0111001100000101 = .ok (.addImm 3 0x05) ∧
    decodeWord 0b1000101010110000 = .ok (.ldReg 0xA 0xB) ∧
    decodeWord 0b1000101010110001 = .ok (.or 0xA 0xB) ∧
    decodeWord 0b1000101010110010 = .ok (.and 0xA 0xB) ∧
    decodeWord 0b1000101010110011 = .ok (.xor 0xA 0xB) ∧
    decodeWord 0b1000101010110100 = .ok (.addReg 0xA 0xB) ∧
    decodeWord 0b1000101010110101 = .ok (.sub 0xA 0xB) ∧
    decodeWord 0b1000101010110110 = .ok (.shr 0xA 0xB) ∧
    decodeWord 0b1000101010110111 = .ok (.subn 0xA 0xB) ∧
    decodeWord 0b1000101010111110 = .ok (.shl 0xA 0xB) ∧
    decodeWord 0b1100001110100111 = .ok (.rnd 3 0xA7) := by decide

/-- Address register and memory: `Annn`, `Fx1E`, `Fx29`, `Fx33`, `Fx55`, `Fx65`. -/
theorem test_decode_index_memory :
    decodeWord 0b1010000100100011 = .ok (.ldI 0x123) ∧
    decodeWord 0b1111001000011110 = .ok (.addIVx 2) ∧
    decodeWord 0b1111001100101001 = .ok (.ldFVx 3) ∧
    decodeWord 0b1111010000110011 = .ok (.ldBVx 4) ∧
    decodeWord 0b1111010101010101 = .ok (.ldMemVx 5) ∧
    decodeWord 0b1111000101100101 = .ok (.ldVxMem 1) := by decide

/-- Display, keypad, timers: `00E0`, `Dxyn`, `Ex9E`, `ExA1`, `Fx07`, `Fx0A`, `Fx15`, `Fx18`. -/
theorem test_decode_display_keypad_timers :
    decodeWord 0b0000000011100000 = .ok .cls ∧
    decodeWord 0b1101000100101111 = .ok (.drw 1 2 0xF) ∧
    decodeWord 0b1110000110011110 = .ok (.skp 1) ∧
    decodeWord 0b1110000110100001 = .ok (.sknp 1) ∧
    decodeWord 0b1111010000000111 = .ok (.ldVxDt 4) ∧
    decodeWord 0b1111001100001010 = .ok (.ldVxK 3) ∧
    decodeWord 0b1111010000010101 = .ok (.ldDtVx 4) ∧
    decodeWord 0b1111010000011000 = .ok (.ldStVx 4) := by decide

/-- Unknown words: T-E-3, T-E-5, T-E-10, T-E-13, T-E-16, T-E-18, T-E-19. -/
theorem test_decode_unknown :
    decodeWord 0x00EF = .error (.unknownOpcode 0x00EF) ∧ decodeWord 0x0000 = .error (.unknownOpcode 0x0000) ∧
    decodeWord 0x8ABF = .error (.unknownOpcode 0x8ABF) ∧ decodeWord 0x912F = .error (.unknownOpcode 0x912F) ∧
    decodeWord 0xE19F = .error (.unknownOpcode 0xE19F) ∧ decodeWord 0xF1FF = .error (.unknownOpcode 0xF1FF) ∧
    decodeWord 0xFFFF = .error (.unknownOpcode 0xFFFF) := by decide

/-- R70, R91, S12: high byte first; one byte alone is no instruction. -/
theorem test_decode_bytes :
    decodeBytes [0x12, 0x34, 0x56] = .ok (.jp 0x234, [0x56]) ∧ decodeBytes [0x12] = .error .truncated ∧
    decodeTableWord 16 0xF165 = some (.ldVxMem 1) ∧ decodeTableWord 16 0x5121 = none := by decide

/-! ### One step, with the values of spec/95_test_vectors.md -/

/-- What `f` reads from the state that an outcome leaves. -/
def after {α : Type} (o : Host.Outcome State Fault Refusal) (f : State → α) : Option α :=
  match o with
  | .next t => some (f t)
  | .fault _ => none
  | .refused _ => none

/-- No key held, no key press, random byte 0. -/
def quiet : Inputs := { keys := 0, keyPress := none, rnd := 0x00 }

/-- The reset state with one transaction scheduled. -/
def scheduled (tr : Transaction) : State := { State.reset with schedule := [tr] }

/-- The reset state with a `Step` on the given inputs scheduled, the word `w` at `pc`, and some registers set. -/
def startWith (inputs : Inputs) (pc : Word) (w : Word) (regs : List (Reg × Byte)) : State :=
  regs.foldl (fun s p => s.setV p.1 p.2) (((scheduled (.step inputs)).setPc pc.toNat).placeWord w)

/-- The same at 0x200 with quiet inputs. -/
def start (w : Word) (regs : List (Reg × Byte)) : State := startWith quiet 0x200 w regs

/-- The call stack of T-C-7: `stack[j] = 0x0300 + 2j`. -/
def filledStack : Vector Word 16 := Vector.ofFn fun j => BitVec.ofNat 16 (0x0300 + 2 * j.val)

/-- RET, T-C-8. -/
theorem test_ret : after (step { start 0x00EE [] with sp := 1, stack := State.reset.stack.set 0 0x0ABC })
    (fun t => (t.pc, t.sp, t.stack[0])) = some (0xABC, 0, 0x0ABC) := by decide

/-- RET on an empty stack, T-C-9. -/
theorem test_ret_empty : after (step (start 0x00EE [])) (fun t => (t.pc, t.sp, t.mode, t.fault)) =
    some (0x202, 0, .halted, some { kind := .stackUnderflow, opcode := 0x00EE, addr := 0x200 }) := by decide

/-- JP, T-C-3; the fetch at 0xFFF wraps, T-C-4. -/
theorem test_jp : after (step (start 0x1FFF [])) (·.pc) = some 0xFFF ∧
    after (step (startWith quiet 0xFFF 0x1234 [])) (·.pc) = some 0x234 := by decide

/-- CALL: the pushed `pc` wraps, T-C-6. -/
theorem test_call : after (step (startWith quiet 0xFFE 0x2300 [])) (fun t => (t.pc, t.sp, t.stack[0])) =
    some (0x300, 1, 0x0000) := by decide

/-- CALL on a full stack, T-C-7. -/
theorem test_call_full : after (step { start 0x2400 [] with sp := 16, stack := filledStack })
    (fun t => (t.pc, t.sp, t.stack[15], t.fault)) =
    some (0x202, 16, 0x031E, some { kind := .stackOverflow, opcode := 0x2400, addr := 0x200 }) := by decide

/-- SE_IMM, T-C-11 and, wrapping, T-C-20. -/
theorem test_seImm : after (step (start 0x3A42 [(0xA, 0x43)])) (·.pc) = some 0x202 ∧
    after (step (startWith quiet 0xFFC 0x3A42 [(0xA, 0x42)])) (·.pc) = some 0x000 := by decide

/-- SNE_IMM, T-C-12, T-C-13. -/
theorem test_sneImm : after (step (start 0x4A42 [(0xA, 0x42)])) (·.pc) = some 0x202 ∧
    after (step (start 0x4A42 [(0xA, 0x43)])) (·.pc) = some 0x204 := by decide

/-- SE_REG, T-C-14, T-C-15. -/
theorem test_seReg : after (step (start 0x5120 [(1, 7), (2, 7)])) (·.pc) = some 0x204 ∧
    after (step (start 0x5120 [(1, 7), (2, 8)])) (·.pc) = some 0x202 := by decide

/-- SNE_REG, T-C-17, T-C-18. -/
theorem test_sneReg : after (step (start 0x9120 [(1, 7), (2, 7)])) (·.pc) = some 0x202 ∧
    after (step (start 0x9120 [(1, 7), (2, 8)])) (·.pc) = some 0x204 := by decide

/-- JP_V0, T-C-24, T-C-26. -/
theorem test_jpV0 : after (step (start 0xBFFF [(0, 0x02)])) (·.pc) = some 0x001 ∧
    after (step (start 0xB200 [(0, 0x01)])) (·.pc) = some 0x201 := by decide

/-- LD_IMM, T-A-1; the advance wraps, T-C-22. -/
theorem test_ldImm : after (step (start 0x6A7F [])) (·.getV 0xA) = some 0x7F ∧
    after (step (startWith quiet 0xFFE 0x6000 [])) (·.pc) = some 0x000 := by decide

/-- ADD_IMM, T-A-2, T-A-3. -/
theorem test_addImm : after (step (start 0x7305 [(3, 0xFE)])) (fun t => (t.getV 3, t.getV 15)) = some (0x03, 0x00) ∧
    after (step (start 0x7F01 [(15, 0xFF)])) (·.getV 15) = some 0x00 := by decide

/-- LD_REG, T-A-4. -/
theorem test_ldReg : after (step (start 0x8120 [(1, 0x01), (2, 0xAB)])) (fun t => (t.getV 1, t.getV 2)) =
    some (0xAB, 0xAB) := by decide

/-- OR, T-A-5. -/
theorem test_or : after (step (start 0x8121 [(1, 0xF0), (2, 0x0F), (15, 0x07)])) (fun t => (t.getV 1, t.getV 15)) =
    some (0xFF, 0x07) := by decide

/-- AND, T-A-6. -/
theorem test_and : after (step (start 0x8122 [(1, 0xFC), (2, 0x3F), (15, 0x07)])) (fun t => (t.getV 1, t.getV 15)) =
    some (0x3C, 0x07) := by decide

/-- XOR, T-A-7. -/
theorem test_xor : after (step (start 0x8123 [(1, 0xFF), (2, 0x0F), (15, 0x07)])) (fun t => (t.getV 1, t.getV 15)) =
    some (0xF0, 0x07) := by decide

/-- ADD_REG: T-A-10 (the source's S2b as the spec corrects it) and, with `x` = F, T-A-14. -/
theorem test_addReg : after (step (start 0x8124 [(1, 0x0A), (2, 0xFA)])) (fun t => (t.getV 1, t.getV 15)) = some (0x04, 1) ∧
    after (step (start 0x8F14 [(15, 0xF0), (1, 0x20)])) (fun t => (t.getV 1, t.getV 15)) = some (0x20, 1) := by decide

/-- SUB, T-A-18 and, on equal operands, T-A-19. -/
theorem test_sub : after (step (start 0x8125 [(1, 5), (2, 7)])) (fun t => (t.getV 1, t.getV 15)) = some (0xFE, 0) ∧
    after (step (start 0x8125 [(1, 5), (2, 5), (15, 1)])) (fun t => (t.getV 1, t.getV 15)) = some (0x00, 0) := by decide

/-- SHR, T-A-22, T-A-25. -/
theorem test_shr : after (step (start 0x8126 [(1, 0x05), (2, 0xAA)])) (fun t => (t.getV 1, t.getV 15, t.getV 2)) =
    some (0x02, 1, 0xAA) ∧ after (step (start 0x8F06 [(15, 0x02)])) (·.getV 15) = some 0 := by decide

/-- SUBN, T-A-26, T-A-28. -/
theorem test_subn : after (step (start 0x8127 [(1, 5), (2, 7)])) (fun t => (t.getV 1, t.getV 15)) = some (0x02, 1) ∧
    after (step (start 0x8127 [(1, 9), (2, 9), (15, 1)])) (fun t => (t.getV 1, t.getV 15)) = some (0x00, 0) := by decide

/-- SHL, T-A-29, T-A-32. -/
theorem test_shl : after (step (start 0x812E [(1, 0x81), (2, 0x55)])) (fun t => (t.getV 1, t.getV 15, t.getV 2)) =
    some (0x02, 1, 0x55) ∧ after (step (start 0x8F0E [(15, 0xC0)])) (·.getV 15) = some 1 := by decide

/-- RND, T-A-33. -/
theorem test_rnd : after (step (startWith { quiet with rnd := 0xA7 } 0x200 0xC30F [])) (·.getV 3) = some 0x07 := by decide

/-- LD_I, T-M-1. -/
theorem test_ldI : after (step (start 0xA123 [])) (·.i) = some 0x123 := by decide

/-- ADD_I_VX, T-M-4. -/
theorem test_addIVx : after (step { start 0xF21E [(2, 0xFF), (15, 0x05)] with i := 0xFFF }) (fun t => (t.i, t.getV 15)) =
    some (0x0FE, 0x05) := by decide

/-- LD_F_VX, T-M-6, T-M-8. -/
theorem test_ldFVx : after (step (start 0xF329 [(3, 0x0F)])) (·.i) = some 0x04B ∧
    after (step (start 0xF329 [(3, 0xFF)])) (·.i) = some 0x4FB := by decide

/-- LD_B_VX, S8 and, wrapping, T-M-15. -/
theorem test_ldBVx : after (step { start 0xF433 [(4, 254)] with i := 0x300 })
      (fun t => (t.memRead 0x300, t.memRead 0x301, t.memRead 0x302, t.i)) = some (2, 5, 4, 0x300) ∧
    after (step { start 0xF433 [(4, 255)] with i := 0xFFE })
      (fun t => (t.memRead 0xFFE, t.memRead 0xFFF, t.memRead 0x000)) = some (2, 5, 5) := by decide

/-- LD_MEM_VX, wrapping, T-M-19. -/
theorem test_ldMemVx : after (step { start 0xF355 [(0, 0x10), (1, 0x11), (2, 0x12), (3, 0x13)] with i := 0xFFE })
    (fun t => (t.memReadList 0xFFE 5, t.i)) = some ([0x10, 0x11, 0x12, 0x13, 0x90], 0xFFE) := by decide

/-- LD_VX_MEM, T-M-22. -/
theorem test_ldVxMem : after (step { start 0xF465 [] with v := Vector.replicate 16 0x77 })
    (fun t => (t.v.toList.take 6, t.i)) = some ([0xF0, 0x90, 0x90, 0x90, 0xF0, 0x77], 0x000) := by decide

/-- CLS, T-D-13. -/
theorem test_cls : after (step (start 0x00E0 [(15, 1)] |>.setFb ((State.reset.fb.set 3 0x80).set 31 0x8000000000000000)))
    (fun t => (t.pixel 7 3, t.pixel 63 31, t.getV 15)) = some (false, false, 1) := by decide

/-- DRW: collision, T-D-7. -/
theorem test_drw_collision :
    after (step { (start 0xD011 []).memWrite 0x300 0xC0 with i := 0x300, fb := State.reset.fb.set 0 0b10 })
      (fun t => (t.pixel 0 0, t.pixel 1 0, t.getV 15)) = some (true, false, 1) := by decide

/-- DRW: columns wrap, T-D-2 (the columns 60 to 63 and 0 to 3 of row 0, and no other). -/
theorem test_drw_wrap : after (step { (start 0xD011 [(0, 60)]).memWrite 0x300 0xFF with i := 0x300 })
    (fun t => (t.fb[0], t.fb[1], t.getV 15)) = some (0xF00000000000000F, 0, 0) := by decide

/-- SKP: key number `Vx[3:0]`, T-K-5; `key_press` is not read, T-K-6. -/
theorem test_skp : after (step (startWith { quiet with keys := 0x0400 } 0x200 0xE59E [(5, 0x1A)])) (·.pc) = some 0x204 ∧
    after (step (startWith { quiet with keyPress := some 10 } 0x200 0xE59E [(5, 0x0A)])) (·.pc) = some 0x202 := by decide

/-- SKNP, T-K-3, T-K-4. -/
theorem test_sknp : after (step (startWith { quiet with keys := 0x0400 } 0x200 0xE5A1 [(5, 0x0A)])) (·.pc) = some 0x202 ∧
    after (step (start 0xE5A1 [(5, 0x0A)])) (·.pc) = some 0x204 := by decide

/-- LD_VX_K, T-K-7. -/
theorem test_ldVxK :
    after (step (startWith { quiet with keyPress := some 7, keys := 0xFFFF } 0x200 0xF30A [(3, 0x55)]))
      (fun t => (t.mode, t.pc, t.getV 3)) = some (.waitKey 3, 0x202, 0x55) := by decide

/-- A wait-step with a key press, T-K-10. -/
theorem test_wait_step :
    after (step { scheduled (.step { quiet with keyPress := some 0xC }) with mode := .waitKey 3, pc := 0x202 })
      (fun t => (t.getV 3, t.mode, t.pc)) = some (0x0C, .running, 0x202) := by decide

/-- LD_VX_DT, T-T-1. -/
theorem test_ldVxDt : after (step { start 0xF407 [] with dt := 9 }) (fun t => (t.getV 4, t.dt)) = some (9, 9) := by decide

/-- LD_DT_VX, T-T-2. -/
theorem test_ldDtVx : after (step (start 0xF415 [(4, 0x3C)])) (fun t => (t.dt, t.st)) = some (60, 0) := by decide

/-- LD_ST_VX, T-T-3. -/
theorem test_ldStVx : after (step (start 0xF418 [(4, 0x02)])) (fun t => (t.st, t.soundOn)) = some (2, true) := by decide

/-- `Tick`: T-T-5, and in `HALTED`, T-T-7. -/
theorem test_tick : after (step { scheduled .tick with dt := 2, st := 1 }) (fun t => (t.dt, t.st, t.soundOn)) =
      some (1, 0, false) ∧
    after (step { scheduled .tick with dt := 3, mode := .halted }) (fun t => (t.dt, t.st, t.mode)) =
      some (2, 0, .halted) := by decide

/-- `Load`, T-R-3. -/
theorem test_load : after (step (scheduled (.load [0x12, 0x00])))
    (fun t => (t.memRead 0x200, t.memRead 0x201, t.report)) = some (0x12, 0x00, some .loadOk) := by decide

/-- `Reset` out of `HALTED`, T-R-9. -/
theorem test_reset :
    after (step { scheduled .reset with
      mode := .halted, pc := 0x202, fault := some { kind := .stackOverflow, opcode := 0x2200, addr := 0x200 } })
      (fun t => (t.mode, t.pc, t.fault)) = some (.running, 0x200, none) := by decide

/-- After `Reset` without a `Load`, T-R-7. -/
theorem test_first_step_unknown : after (step (scheduled (.step quiet))) (fun t => (t.pc, t.report)) =
    some (0x202, some (.unknownOpcode 0x0000 0x200)) := by decide

/-- T-R-2, the default font. -/
theorem test_reset_font : (State.reset.memReadList 0x04B 6, State.reset.memRead 0x005) =
    ([0xF0, 0x80, 0xF0, 0x80, 0x80, 0x00], 0x20) := by decide

/-! ### Witnesses: states and operands that meet the hypotheses of the statements -/

/-- `LD VA, 0x7F` at 0x200. -/
def loadState : State := start 0x6A7F []

/-- A state in `HALTED` with a transaction scheduled. -/
def haltedWith (tr : Transaction) : State :=
  { scheduled tr with mode := .halted, fault := some { kind := .stackUnderflow, opcode := 0x00EE, addr := 0x200 } }

/-- A state in `WAIT_KEY(15)` with a `Step` scheduled. -/
def waiting (press : Option Key) : State :=
  { scheduled (.step { quiet with keyPress := press }) with mode := .waitKey 15 }

/-- EncodeOfDecodeIsIdentity, and the three clauses of DecoderAgreesWithOpcodeTable: a word that decodes, a row that matches,
a word that no row matches. -/
theorem witness_DecoderAgreesWithOpcodeTable :
    decodeWord 0x8ABE = .ok (.shl 0xA 0xB) ∧
    (⟨"SHL", 0x800E, 0xF00F⟩ ∈ opcodeTable ∧ (0x8ABE : Word) &&& 0xF00F = 0x800E) ∧
    (∀ r ∈ opcodeTable, (0x8ABF : Word) &&& r.mask ≠ r.pattern) := by decide

/-- UnknownWordsByClass: the first and the last unknown word of every class that has one, and their known neighbours. -/
theorem witness_UnknownWordsByClass :
    ([0x0000, 0x00DF, 0x00E1, 0x00EF, 0x0FFF, 0x5001, 0x5FFF, 0x8008, 0x8FFF, 0x9001, 0x9FFF, 0xE000, 0xE09F, 0xEFFF,
      0xF000, 0xF008, 0xFFFF] : List Word).map (fun w => (decodeWord w).toBool) = List.replicate 17 false ∧
    ([0x00E0, 0x00EE, 0x1000, 0x5000, 0x8007, 0x800E, 0x9FF0, 0xEFA1, 0xF007] : List Word).map
      (fun w => (decodeWord w).toBool) = List.replicate 9 true := by decide

/-- StepExecutesDecodedInstruction, with a scheduled `Step`. -/
theorem witness_StepExecutesDecodedInstruction :
    loadState.takeTransaction = (.step quiet, { loadState with schedule := [] }) ∧ loadState.mode = .running ∧
    decodeWord (loadState.memRead loadState.pc.toNat ++ loadState.memRead (loadState.pc.toNat + 1)) =
      .ok (.ldImm 0xA 0x7F) := by decide

/-- R99: with nothing scheduled, the next transaction is a free one, of any kind. -/
theorem test_empty_schedule : State.reset.takeTransaction = (Config.freeTransaction 0, { State.reset with freeCount := 1 }) := rfl

/-- `withFetchWord` makes a `Step` the next transaction: it passes over a `Tick` and keeps a scheduled `Step`. -/
theorem test_withFetchWord_schedule :
    (State.withFetchWord { State.reset with schedule := [.tick, .step quiet, .tick] } 16 0x1234).schedule =
      [.step quiet, .tick] := by decide

/-- `JP 0x234` at 0x200 of the reset state, which has nothing scheduled. -/
def freeState : State := State.reset.withFetchWord 16 0x1234

/-- StepExecutesDecodedInstruction, with free inputs. -/
theorem witness_StepExecutesDecodedInstruction_free :
    (∃ s₁, freeState.takeTransaction = (.step (Config.freeInputs 0), s₁)) ∧ freeState.mode = .running ∧
    decodeWord (freeState.memRead freeState.pc.toNat ++ freeState.memRead (freeState.pc.toNat + 1)) = .ok (.jp 0x234) :=
  ⟨⟨_, rfl⟩, rfl, by decide⟩

/-- UnknownOpcodeIsReportedAndSkipped. -/
theorem witness_UnknownOpcodeIsReportedAndSkipped :
    (start 0x8128 []).takeTransaction = (.step quiet, { start 0x8128 [] with schedule := [] }) ∧
    (start 0x8128 []).mode = .running ∧
    (start 0x8128 []).memRead (start 0x8128 []).pc.toNat ++ (start 0x8128 []).memRead ((start 0x8128 []).pc.toNat + 1) =
      (0x8128 : Word) ∧
    (decodeWord 0x8128).toBool = false := by decide

/-- No instruction is read from 0x8128 (the last hypothesis of UnknownOpcodeIsReportedAndSkipped). -/
theorem witness_unknown_word : ∀ i, decodeWord 0x8128 ≠ .ok i := by
  intro i h
  have : decodeWord 0x8128 = .error (.unknownOpcode 0x8128) := by decide
  rw [this] at h
  cases h

/-- StepInHaltedChangesNothing. -/
theorem witness_StepInHaltedChangesNothing :
    (haltedWith (.step quiet)).takeTransaction = (.step quiet, { haltedWith (.step quiet) with schedule := [] }) ∧
    (haltedWith (.step quiet)).mode = .halted := by decide

/-- WaitStepConsumesKeyPress: no press, and the presses of the keys 0 and 15. -/
theorem witness_WaitStepConsumesKeyPress :
    (waiting none).takeTransaction = (.step quiet, { waiting none with schedule := [] }) ∧
    (waiting none).mode = .waitKey 15 ∧
    (waiting (some 0)).takeTransaction =
      (.step { quiet with keyPress := some 0 }, { waiting (some 0) with schedule := [] }) ∧
    (waiting (some 0)).mode = .waitKey 15 ∧
    (waiting (some 15)).takeTransaction =
      (.step { quiet with keyPress := some 15 }, { waiting (some 15) with schedule := [] }) ∧
    (waiting (some 15)).mode = .waitKey 15 := by decide

/-- UnnamedInputsAreIgnored: the premises on `keys` and `rnd`, for SKP, for RND, and for an instruction that names neither. -/
theorem witness_UnnamedInputsAreIgnored :
    (∃ t, exec (.skp 5) loadState = .next t) ∧ ({ quiet with keyPress := some 3 } : Inputs).keys = loadState.inputs.keys ∧
    (∃ t, exec (.rnd 5 0x0F) loadState = .next t) ∧ ({ quiet with keys := 0xFFFF } : Inputs).rnd = loadState.inputs.rnd ∧
    (∃ t, exec (.ldImm 5 0x0F) loadState = .next t) ∧ ({ keys := 0xFFFF, keyPress := some 15, rnd := 0xFF } : Inputs) ≠
      loadState.inputs :=
  ⟨⟨_, rfl⟩, rfl, ⟨_, rfl⟩, rfl, ⟨_, rfl⟩, by decide⟩

/-- InstructionsWriteOnlyTheirElements: a next state exists, and the frame shuts out the byte after the last one stored, the slot
beside the one pushed to, and a pixel beside the sprite of one row. -/
theorem witness_InstructionsWriteOnlyTheirElements :
    (∃ t, exec (.ldMemVx 15) State.reset = .next t) ∧ ¬ mayWrite State.reset (.ldMemVx 15) (.byte 16) ∧
    (∃ t, exec (.ldBVx 4) State.reset = .next t) ∧ ¬ mayWrite State.reset (.ldBVx 4) (.byte 3) ∧
    (∃ t, exec (.call 0x300) State.reset = .next t) ∧ ¬ mayWrite State.reset (.call 0x300) (.slot 1) ∧
    (∃ t, exec (.drw 0 1 1) State.reset = .next t) ∧ ¬ mayWrite State.reset (.drw 0 1 1) (.pixel 0 1) := by
  refine ⟨⟨_, rfl⟩, ?_, ⟨_, rfl⟩, ?_, ⟨_, rfl⟩, ?_, ⟨_, rfl⟩, ?_⟩
  · simp only [mayWrite, storesTo, State.elementAddr]
    rintro (⟨x, h, -⟩ | ⟨x, h, k, hk, he⟩)
    · cases h
    · injection h with h
      subst h
      have hi : State.reset.i.toNat = 0 := rfl
      rw [hi] at he
      have : k ≤ 15 := hk
      omega
  · simp only [mayWrite, storesTo, State.elementAddr]
    rintro (⟨x, -, k, hk, he⟩ | ⟨x, h, -⟩)
    · have hi : State.reset.i.toNat = 0 := rfl
      rw [hi] at he
      omega
    · cases h
  · rintro ⟨-, h⟩
    revert h
    decide
  · rintro (h | ⟨x, y, n, h, r, hr, col, hc, -, -, hy⟩)
    · cases h
    · injection h with h1 h2 h3
      subst h2 h3
      have hr : r < 1 := hr
      have hy : 1 = (0 + r) % 32 := hy
      omega

/-- SelfJumpChangesNothing, at 0x200 and at 0xFFF. -/
theorem witness_SelfJumpChangesNothing :
    (∀ s ∈ [start 0x1200 [], startWith quiet 0xFFF 0x1FFF []],
      s.takeTransaction = (.step quiet, { s with schedule := [] }) ∧ s.mode = .running ∧ s.pc.toNat < 4096 ∧
      (s.memRead s.pc.toNat ++ s.memRead (s.pc.toNat + 1)).toNat = 0x1000 + s.pc.toNat) := by decide

/-- After the fetch of T-M-23, with `I` at a given address. -/
def storeState (i : Addr) : State := { State.reset with pc := 0x202, i := i }

/-- NextFetchSeesTheStore, LD_MEM_VX: stores over both bytes at `pc`, over the high one alone, over the low one alone, and over
none. -/
theorem witness_NextFetchSeesTheStore :
    (∃ t, exec (.ldMemVx 1) (storeState 0x202) = .next t) ∧
    (0x202 % 4096 = (storeState 0x202).elementAddr 0 ∧ (0x202 + 1) % 4096 = (storeState 0x202).elementAddr 1) ∧
    (0x202 % 4096 = (storeState 0x201).elementAddr 1 ∧
      ∀ r : Reg, r ≤ 1 → (0x202 + 1) % 4096 ≠ (storeState 0x201).elementAddr r.val) ∧
    ((∀ r : Reg, r ≤ 1 → 0x202 % 4096 ≠ (storeState 0x203).elementAddr r.val) ∧
      (0x202 + 1) % 4096 = (storeState 0x203).elementAddr 0) ∧
    (storeState 0x202).pc.toNat = 0x202 := ⟨⟨_, rfl⟩, by decide⟩

/-- NextFetchSeesTheStore, LD_B_VX: the first and the last digit over the bytes at `pc`. -/
theorem witness_NextFetchSeesTheStore_digits :
    (∃ t, exec (.ldBVx 1) (storeState 0x200) = .next t) ∧
    (0x202 % 4096 = (storeState 0x200).elementAddr 2 ∧ ∀ k < 3, (0x202 + 1) % 4096 ≠ (storeState 0x200).elementAddr k) ∧
    ((∀ k < 3, 0x202 % 4096 ≠ (storeState 0x203).elementAddr k) ∧ (0x202 + 1) % 4096 = (storeState 0x203).elementAddr 0) :=
  ⟨⟨_, rfl⟩, by decide⟩

/-- TickDecrementsTimers. -/
theorem witness_TickDecrementsTimers : (scheduled .tick).takeTransaction = (.tick, State.reset) := by decide

/-- TicksDrainTimersToZero: no tick, and three ticks before a `Step`. -/
theorem witness_TicksDrainTimersToZero :
    loadState.schedule = List.replicate 0 .tick ++ [.step quiet] ∧
    ({ State.reset with schedule := [.tick, .tick, .tick, .step quiet] } : State).schedule =
      List.replicate 3 .tick ++ [.step quiet] := by decide

/-- StepChangesTimersOnlyByTheirLoads: a step that sets the delay timer, one that sets the sound timer, one that sets none. -/
theorem witness_StepChangesTimersOnlyByTheirLoads :
    ∀ s ∈ [start 0xF415 [(4, 0x3C)], start 0xF418 [(4, 0x3C)], loadState],
      s.takeTransaction = (.step quiet, { s with schedule := [] }) ∧ (after (step s) (fun _ => true)) = some true := by decide

/-- LoadCopiesTheImage: the empty image and the longest one. -/
theorem witness_LoadCopiesTheImage :
    (scheduled (.load [])).takeTransaction = (.load [], State.reset) ∧ ([] : List Byte).length ≤ 3584 ∧
    (scheduled (.load (List.replicate 3584 0xAA))).takeTransaction = (.load (List.replicate 3584 0xAA), State.reset) ∧
    (List.replicate 3584 (0xAA : Byte)).length ≤ 3584 ∧ (List.replicate 3584 (0xAA : Byte))[3583]? = some 0xAA := by
  refine ⟨rfl, by decide, rfl, ?_, ?_⟩
  · rw [List.length_replicate]
  · rw [List.getElem?_replicate, if_pos (by decide)]

/-- LoadRefusesTooLargeImage: the shortest such image. -/
theorem witness_LoadRefusesTooLargeImage :
    (scheduled (.load (List.replicate 3585 0xAA))).takeTransaction = (.load (List.replicate 3585 0xAA), State.reset) ∧
    (List.replicate 3585 (0xAA : Byte)).length > 3584 := by
  refine ⟨rfl, ?_⟩
  rw [List.length_replicate]
  decide

/-- ResetSetsEveryElement: in `HALTED`, with the lowest and the highest `FONT_BASE`; bytes beside the font. -/
theorem witness_ResetSetsEveryElement :
    (haltedWith .reset).takeTransaction = (.reset, { haltedWith .reset with schedule := [] }) ∧
    (haltedWith .reset).params.wellFormed = true ∧ (0xFFF < 4096 ∧ ∀ j : Fin 80, 0xFFF ≠ 0x000 + j.val) ∧
    ({ defaultParams with fontBase := 0x1B0 } : Params).wellFormed = true ∧
    (0x1AF < 4096 ∧ ∀ j : Fin 80, 0x1AF ≠ 0x1B0 + j.val) ∧ (0x200 < 4096 ∧ ∀ j : Fin 80, 0x200 ≠ 0x1B0 + j.val) := by decide

/-- ResetStateHoldsTheResetValues: the bounds of the range of the last clause. -/
theorem witness_ResetStateHoldsTheResetValues : 0x050 ≤ 0x050 ∧ 0xFFF < 4096 := by decide

/-- EveryStepKeepsInvariant: a running state with bytes in memory, and a halted one. -/
theorem witness_EveryStepKeepsInvariant :
    (loadState.Inv ∧ ∃ t, step loadState = .next t) ∧
    ((haltedWith .tick).Inv ∧ ∃ t, step (haltedWith .tick) = .next t) :=
  ⟨⟨⟨by decide, by decide, by decide, by decide, by decide⟩, ⟨_, rfl⟩⟩,
    ⟨by decide, by decide, by decide, by decide, by decide⟩, ⟨_, rfl⟩⟩

/-- OnlyResetLeavesHalted, for the three other transactions. -/
theorem witness_OnlyResetLeavesHalted :
    ∀ tr ∈ [Transaction.step quiet, .tick, .load [0x12, 0x00]],
      (haltedWith tr).mode = .halted ∧ (haltedWith tr).takeTransaction = (tr, { haltedWith tr with schedule := [] }) ∧
      tr ≠ .reset := by decide

/-- ReturnPopsTheStack: one call outstanding, and sixteen. -/
theorem witness_ReturnPopsTheStack :
    ({ State.reset with sp := 1 } : State).sp.val = (0 : Fin 16).val + 1 ∧
    ({ State.reset with sp := 16 } : State).sp.val = (15 : Fin 16).val + 1 := by decide

/-- ReturnOnEmptyStackHalts. -/
theorem witness_ReturnOnEmptyStackHalts :
    (start 0x00EE []).takeTransaction = (.step quiet, { start 0x00EE [] with schedule := [] }) ∧
    (start 0x00EE []).mode = .running ∧
    (start 0x00EE []).memRead (start 0x00EE []).pc.toNat ++ (start 0x00EE []).memRead ((start 0x00EE []).pc.toNat + 1) =
      (0x00EE : Word) ∧ (start 0x00EE []).sp = 0 := by decide

/-- CallPushesAndJumps: an empty stack, and one with one free slot. -/
theorem witness_CallPushesAndJumps :
    State.reset.sp.val = (0 : Fin 16).val ∧ ({ State.reset with sp := 15 } : State).sp.val = (15 : Fin 16).val := by decide

/-- `CALL 0x400` with a full stack. -/
def fullState : State := { start 0x2400 [] with sp := 16 }

/-- CallOnFullStackHalts. -/
theorem witness_CallOnFullStackHalts :
    fullState.takeTransaction = (.step quiet, { fullState with schedule := [] }) ∧ fullState.mode = .running ∧
    fullState.memRead fullState.pc.toNat ++ fullState.memRead (fullState.pc.toNat + 1) = (0x2400 : Word) ∧
    decodeWord 0x2400 = .ok (.call 0x400) ∧ fullState.sp.val = 16 := by decide

/-- CallAndReturnLaws: (a) with `u` the state the call left, at the lowest and the highest `sp`; (b), (c) the empty stack. -/
theorem witness_CallAndReturnLaws :
    (State.reset.pc.toNat < 4096 ∧ State.reset.sp.val < 16 ∧ ∃ t, exec (.call 0x300) State.reset = .next t) ∧
    (({ State.reset with pc := 0xFFF, sp := 15 } : State).pc.toNat < 4096 ∧
      ({ State.reset with pc := 0xFFF, sp := 15 } : State).sp.val < 16 ∧
      ∃ t, exec (.call 0x300) { State.reset with pc := 0xFFF, sp := 15 } = .next t) ∧
    (State.reset.sp = 0 ∧ (List.replicate 16 (0x200 : Addr)).length = 16) :=
  ⟨⟨by decide, by decide, ⟨_, rfl⟩⟩, ⟨by decide, by decide, ⟨_, rfl⟩⟩, rfl, rfl⟩

/-- ImmediateSkips, RegisterSkips: registers that are equal to the other operand and that are not. -/
theorem witness_ImmediateSkips :
    loadState.getV 1 = 0x00 ∧ loadState.getV 1 ≠ 0x01 ∧ loadState.getV 1 = loadState.getV 15 ∧
    (start 0x6A7F [(1, 0xFF)]).getV 1 ≠ (start 0x6A7F [(1, 0xFF)]).getV 15 := by decide

/-- RegisterSkips: the last digits beside 0. -/
theorem witness_RegisterSkips : (0x1#4 : BitVec 4) ≠ 0 ∧ (0xF#4 : BitVec 4) ≠ 0 := by decide

/-- The clauses `x ≠ 15` of AddRegistersSetsCarry, SubtractionsSetGreaterFlag, ShiftsSetLostBit, the bits `b < 8` of
LogicOperations and RandomIsMasked, and `r ≤ x` of StoreRegisters and LoadRegisters. -/
theorem witness_operand_ranges :
    (14 : Reg) ≠ 15 ∧ (0 : Reg) ≠ 15 ∧ 7 < 8 ∧ (0 : Reg) ≤ 0 ∧ (15 : Reg) ≤ 15 := by decide

/-- StoredRegistersComeBack: `u` is the state the store left with its registers cleared. -/
theorem witness_StoredRegistersComeBack :
    ∃ t, exec (.ldMemVx 15) loadState = .next t ∧ (t.setRegs State.reset.v).i = t.i ∧
      (t.setRegs State.reset.v).mem = t.mem ∧ (t.setRegs State.reset.v).params = t.params := ⟨_, rfl, rfl, rfl, rfl⟩

/-- Glyph 0 at the top left corner: it sets the pixel (0, 0) and not the pixel (1, 1). -/
theorem witness_DrawFlipsSpriteAndSetsCollision :
    spriteSets State.reset 0 0 5 0 0 ∧ ¬ spriteSets State.reset 0 0 5 1 1 := by
  constructor
  · exact ⟨0, by decide, 0, by decide, by decide, by decide, by decide⟩
  · rintro ⟨r, hr, col, hc, h1, h2, h3⟩
    have hcol : col = 1 := by simp at h2; omega
    have hrow : r = 1 := by simp at h3; omega
    subst hcol hrow
    revert h1
    decide

/-- DrawFlipsSpriteAndSetsCollision: a picture on which the sprite collides, and one on which it does not. -/
theorem witness_collision :
    (∃ px py, spriteSets { State.reset with fb := State.reset.fb.set 0 1 } 0 0 5 px py ∧
      ({ State.reset with fb := State.reset.fb.set 0 1 } : State).pixel px py = true) ∧
    ¬ ∃ px py, spriteSets State.reset 0 0 5 px py ∧ State.reset.pixel px py = true := by
  constructor
  · exact ⟨0, 0, ⟨0, by decide, 0, by decide, by decide, by decide, by decide⟩, by decide⟩
  · rintro ⟨px, py, -, h⟩
    simp [State.pixel, Framebuffer.pixel, State.reset] at h

/-- DrawingTwiceRestoresThePicture: `u` is the state the first draw left. -/
theorem witness_DrawingTwiceRestoresThePicture :
    ∃ t, exec (.drw 0 1 5) State.reset = .next t ∧ t.getV 0 = State.reset.getV 0 ∧ t.getV 1 = State.reset.getV 1 :=
  ⟨_, rfl, rfl, rfl⟩

/-- KeypadSkips: a held key and one that is not held, key numbers 15 and 0. -/
theorem witness_KeypadSkips :
    (startWith quiet 0x200 0xE59E [(5, 0xFF)]).getV 5 = 0xFF ∧
    (BitVec.getLsbD (0x8000 : BitVec 16) ((0xFF : Byte).toNat % 16) = true) ∧
    (BitVec.getLsbD (0x8000 : BitVec 16) ((0xF0 : Byte).toNat % 16) = false) := by decide

end Sys2Proof.Tests
end

section
/-! PROOFS. Control transfer (spec 41_control_flow.md): the jump and the register skips. -/

namespace Sys2Proof

/-! ### The words of classes 5 and 9 whose last digit is not 0 (R76, D7) -/

theorem Decode.class5_of_n_ne_zero {w : Word} (h : Decode.n w ≠ 0) :
    Decode.class5 w = .error (.unknownOpcode w) := by
  unfold Decode.class5
  split
  · exact absurd (Fin.ext ‹_›) h
  · rfl

theorem Decode.class9_of_n_ne_zero {w : Word} (h : Decode.n w ≠ 0) :
    Decode.class9 w = .error (.unknownOpcode w) := by
  unfold Decode.class9
  split
  · exact absurd (Fin.ext ‹_›) h
  · rfl

theorem decodeWord_class5_of_ne_zero (x y : Reg) {n : Fin 16} (h : n ≠ 0) :
    decodeWord (Encode.fmtXYN 0x5 x y n) = .error (.unknownOpcode (Encode.fmtXYN 0x5 x y n)) := by
  have hclass : decodeWord (Encode.fmtXYN 0x5 x y n) = Decode.class5 (Encode.fmtXYN 0x5 x y n) := by
    simp [decodeWord]
  rw [hclass, Decode.class5_of_n_ne_zero (by simpa using h)]

theorem decodeWord_class9_of_ne_zero (x y : Reg) {n : Fin 16} (h : n ≠ 0) :
    decodeWord (Encode.fmtXYN 0x9 x y n) = .error (.unknownOpcode (Encode.fmtXYN 0x9 x y n)) := by
  have hclass : decodeWord (Encode.fmtXYN 0x9 x y n) = Decode.class9 (Encode.fmtXYN 0x9 x y n) := by
    simp [decodeWord]
  rw [hclass, Decode.class9_of_n_ne_zero (by simpa using h)]

end Sys2Proof

namespace Sys2Proof.Machine

/-! ### The meanings (R94, R111, R113 to R116) -/

theorem exec_jp (nnn : Addr) (s : State) : exec (.jp nnn) s = .next (s.setPc nnn.toNat) := rfl

theorem exec_seImm (x : Reg) (kk : Byte) (s : State) :
    exec (.seImm x kk) s = .next (s.skipIf (s.getV x == kk)) := rfl

theorem exec_sneImm (x : Reg) (kk : Byte) (s : State) :
    exec (.sneImm x kk) s = .next (s.skipIf (s.getV x != kk)) := rfl

theorem exec_seReg (x y : Reg) (s : State) :
    exec (.seReg x y) s = .next (s.skipIf (s.getV x == s.getV y)) := rfl

theorem exec_sneReg (x y : Reg) (s : State) :
    exec (.sneReg x y) s = .next (s.skipIf (s.getV x != s.getV y)) := rfl

/-- The effect of `if c then skip` (R118), for a skip whose condition `c` is given by two propositions: `p` where it is taken,
`q` where it is not. -/
theorem State.skipIf_effect (s : State) {c : Bool} {p q : Prop} (hp : p → c = true) (hq : q → c = false) :
    OnlyChanges s (s.skipIf c) (fun e => e = .pc) ∧
      (p → (s.skipIf c).pc.toNat = (s.pc.toNat + 2) % 4096) ∧ (q → (s.skipIf c).pc = s.pc) := by
  refine ⟨OnlyChanges.skipIf s c, fun h => ?taken, fun h => ?untaken⟩
  case taken => rw [hp h, State.skipIf_true, State.toNat_pc_setPc]
  case untaken => rw [hq h, State.skipIf_false]

/-! ### The statements -/

/-- Settles O28: the target is below 4096, so reducing it mod 4096 leaves it. -/
theorem jumpLoadsPc : Obligations.JumpLoadsPc := by
  intro s nnn
  refine ⟨(Laws.RoundTrip.jp nnn).1, s.setPc nnn.toNat, exec_jp nnn s, ?_, OnlyChanges.setPc s _⟩
  rw [State.toNat_pc_setPc, Nat.mod_eq_of_lt nnn.isLt]

/-- Settles O32: both instructions are one conditional skip, on equality and on its negation. -/
theorem immediateSkips : Obligations.ImmediateSkips := by
  intro s x kk
  refine ⟨(Laws.RoundTrip.seImm x kk).1, (Laws.RoundTrip.sneImm x kk).1, ⟨_, exec_seImm x kk s, ?_⟩,
    ⟨_, exec_sneImm x kk s, ?_⟩⟩
  · exact s.skipIf_effect beq_iff_eq.mpr beq_eq_false_iff_ne.mpr
  · exact s.skipIf_effect bne_iff_ne.mpr bne_eq_false_iff_eq.mpr

/-- Settles O33: as for the immediate skips, and a last digit other than 0 leads both classes to the unknown words. -/
theorem registerSkips : Obligations.RegisterSkips := by
  intro s x y
  refine ⟨⟨(Laws.RoundTrip.seReg x y).1, (Laws.RoundTrip.sneReg x y).1⟩, fun n i hn => ?_, ⟨_, exec_seReg x y s, ?_⟩,
    ⟨_, exec_sneReg x y s, ?_⟩⟩
  · have hdigit : n.toFin ≠ 0 := fun h => hn (BitVec.toFin_inj.mp h)
    constructor
    · exact fun h => nomatch (decodeWord_class5_of_ne_zero x y hdigit).symm.trans h
    · exact fun h => nomatch (decodeWord_class9_of_ne_zero x y hdigit).symm.trans h
  · exact s.skipIf_effect beq_iff_eq.mpr beq_eq_false_iff_ne.mpr
  · exact s.skipIf_effect bne_iff_ne.mpr bne_eq_false_iff_eq.mpr

end Sys2Proof.Machine
end

section
/-! PROOFS. Register load, the immediate addition and the copy (spec 42_alu.md): each writes one register and no flag. -/

namespace Sys2Proof.Machine

/-! ### The meanings (R94, R130 to R132) -/

theorem exec_ldImm (x : Reg) (kk : Byte) (s : State) : exec (.ldImm x kk) s = .next (s.setV x kk) := rfl

theorem exec_addImm (x : Reg) (kk : Byte) (s : State) :
    exec (.addImm x kk) s = .next (s.setV x (s.getV x + kk)) := rfl

theorem exec_ldReg (x y : Reg) (s : State) : exec (.ldReg x y) s = .next (s.setV x (s.getV y)) := rfl

/-! ### The statements -/

/-- Settles O35: the immediate is written to the one register, which may be VF. -/
theorem loadImmediate : Obligations.LoadImmediate := by
  intro s x kk
  exact ⟨(Laws.RoundTrip.ldImm x kk).1, _, exec_ldImm x kk s, s.getV_setV_self x kk, OnlyChanges.setV s x kk⟩

/-- Settles O36: the sum of two bytes wraps at 256, and it is written to the one register alone. -/
theorem addImmediate : Obligations.AddImmediate := by
  intro s x kk
  refine ⟨(Laws.RoundTrip.addImm x kk).1, _, exec_addImm x kk s, ?_, OnlyChanges.setV s x _⟩
  rw [State.getV_setV_self, BitVec.toNat_add]

/-- Settles O37: the value of `Vy` is written to the one register. -/
theorem copyRegister : Obligations.CopyRegister := by
  intro s x y
  exact ⟨(Laws.RoundTrip.ldReg x y).1, _, exec_ldReg x y s, s.getV_setV_self x _, OnlyChanges.setV s x _⟩

end Sys2Proof.Machine
end

section
/-! PROOFS. The address register (spec 43_index_memory.md): its load and the addition of a register to it. -/

namespace Sys2Proof.Machine

/-! ### The meanings (R94, R150, R151) -/

theorem exec_ldI (nnn : Addr) (s : State) : exec (.ldI nnn) s = .next (s.setI nnn) := rfl

theorem exec_addIVx (x : Reg) (s : State) :
    exec (.addIVx x) s = .next (s.setI (s.i + (s.getV x).setWidth 12)) := rfl

/-- A byte added to an address wraps at the end of the address space; widening the byte to 12 bits loses nothing. -/
theorem toNat_addr_add_byte (a : Addr) (b : Byte) :
    (a + b.setWidth 12).toNat = (a.toNat + b.toNat) % 4096 := by
  rw [BitVec.toNat_add, BitVec.toNat_setWidth_of_le (by decide)]

/-! ### The statements -/

/-- Settles O43: the operand is written to the address register alone. -/
theorem loadAddressRegister : Obligations.LoadAddressRegister := by
  intro s nnn
  exact ⟨(Laws.RoundTrip.ldI nnn).1, _, exec_ldI nnn s, s.i_setI nnn, OnlyChanges.setI s nnn⟩

/-- Settles O44: the sum wraps at 4096, and it is written to the address register alone, so VF stays. -/
theorem addToAddressRegister : Obligations.AddToAddressRegister := by
  intro s x
  refine ⟨(Laws.RoundTrip.addIVx x).1, _, exec_addIVx x s, ?_, OnlyChanges.setI s _⟩
  rw [State.i_setI, toNat_addr_add_byte]

end Sys2Proof.Machine
end

section
/-! PROOFS. The display (spec 44_display.md): clearing it. -/

namespace Sys2Proof.Machine

/-! ### The meaning and the pixels it leaves (R94, R171, R174) -/

theorem exec_cls (s : State) : exec .cls s = .next (s.setFb Framebuffer.blank) := rfl

/-- The pixels of a state are those of the framebuffer it was given. -/
@[simp] theorem State.pixel_setFb (s : State) (fb : Framebuffer) (x : Fin 64) (y : Fin 32) :
    (s.setFb fb).pixel x y = Framebuffer.pixel fb x y := rfl

/-! ### The statement -/

/-- Settles O50: the framebuffer alone is written, with the blank one, so VF stays. -/
theorem clearDisplay : Obligations.ClearDisplay := by
  refine ⟨Laws.RoundTrip.cls.1, fun s => ⟨_, exec_cls s, fun x y => ?_, OnlyChanges.setFb s _⟩⟩
  rw [State.pixel_setFb, Framebuffer.pixel_blank]

end Sys2Proof.Machine
end

section
/-! PROOFS. The delay timer (spec 45_timers_keypad.md): its read into a register and its load from one. -/

namespace Sys2Proof.Machine

/-! ### The meanings (R94, R188, R189) -/

theorem exec_ldVxDt (x : Reg) (s : State) : exec (.ldVxDt x) s = .next (s.setV x s.dt) := rfl

theorem exec_ldDtVx (x : Reg) (s : State) : exec (.ldDtVx x) s = .next (s.setDt (s.getV x)) := rfl

/-! ### The statements -/

/-- Settles O55: the count is written to the one register, so the timer stays. -/
theorem readDelayTimer : Obligations.ReadDelayTimer := by
  intro s x
  exact ⟨(Laws.RoundTrip.ldVxDt x).1, _, exec_ldVxDt x s, s.getV_setV_self x _, OnlyChanges.setV s x _⟩

/-- Settles O56: the value of `Vx` replaces the count of the delay timer alone, so the sound timer stays. -/
theorem setDelayTimer : Obligations.SetDelayTimer := by
  intro s x
  exact ⟨(Laws.RoundTrip.ldDtVx x).1, _, exec_ldDtVx x s, s.dt_setDt _, OnlyChanges.setDt s _⟩

end Sys2Proof.Machine
end

section
/-! PROOFS. The encoder and the decoder (spec 30_encoding.md): each is the other's inverse, both agree with the opcode map, and
the words left over are the unknown ones. -/

namespace Sys2Proof

open Encode

/-! ### Every instruction (R74, R80), from the family `RoundTrip` -/

theorem roundTrip : ∀ i : Instr, Laws.RoundTrip.Statement i
  | .cls => Laws.RoundTrip.cls
  | .ret => Laws.RoundTrip.ret
  | .jp nnn => Laws.RoundTrip.jp nnn
  | .call nnn => Laws.RoundTrip.call nnn
  | .seImm x kk => Laws.RoundTrip.seImm x kk
  | .sneImm x kk => Laws.RoundTrip.sneImm x kk
  | .seReg x y => Laws.RoundTrip.seReg x y
  | .ldImm x kk => Laws.RoundTrip.ldImm x kk
  | .addImm x kk => Laws.RoundTrip.addImm x kk
  | .ldReg x y => Laws.RoundTrip.ldReg x y
  | .or x y => Laws.RoundTrip.or x y
  | .and x y => Laws.RoundTrip.and x y
  | .xor x y => Laws.RoundTrip.xor x y
  | .addReg x y => Laws.RoundTrip.addReg x y
  | .sub x y => Laws.RoundTrip.sub x y
  | .shr x y => Laws.RoundTrip.shr x y
  | .subn x y => Laws.RoundTrip.subn x y
  | .shl x y => Laws.RoundTrip.shl x y
  | .sneReg x y => Laws.RoundTrip.sneReg x y
  | .ldI nnn => Laws.RoundTrip.ldI nnn
  | .jpV0 nnn => Laws.RoundTrip.jpV0 nnn
  | .rnd x kk => Laws.RoundTrip.rnd x kk
  | .drw x y n => Laws.RoundTrip.drw x y n
  | .skp x => Laws.RoundTrip.skp x
  | .sknp x => Laws.RoundTrip.sknp x
  | .ldVxDt x => Laws.RoundTrip.ldVxDt x
  | .ldVxK x => Laws.RoundTrip.ldVxK x
  | .ldDtVx x => Laws.RoundTrip.ldDtVx x
  | .ldStVx x => Laws.RoundTrip.ldStVx x
  | .addIVx x => Laws.RoundTrip.addIVx x
  | .ldFVx x => Laws.RoundTrip.ldFVx x
  | .ldBVx x => Laws.RoundTrip.ldBVx x
  | .ldMemVx x => Laws.RoundTrip.ldMemVx x
  | .ldVxMem x => Laws.RoundTrip.ldVxMem x

theorem decodeWord_encode (i : Instr) : decodeWord (encode i) = .ok i := (roundTrip i).1

theorem decodeWord_of_encode_eq {i : Instr} {w : Word} (h : encode i = w) : decodeWord w = .ok i :=
  h ▸ decodeWord_encode i

/-- The operands stay off the fixed bits (R72, R80). -/
theorem operandBits_and_mask (i : Instr) : i.operandBits &&& i.row.mask = 0 := beq_iff_eq.mp (roundTrip i).2

/-- The bytes of a word that decodes are read as that word, and what follows them is returned (R70, R91). -/
theorem decodeBytes_bytesOfWord {w : Word} {i : Instr} (h : decodeWord w = .ok i) (rest : List Byte) :
    decodeBytes (bytesOfWord w ++ rest) = .ok (i, rest) := by
  simp only [bytesOfWord, List.cons_append, List.nil_append, decodeBytes, wordOfBytes_bytesOfWord, h]

/-! ### A word from its class and its fields (R71) -/

theorem extract_of_cls {w : Word} {c : BitVec 4} (h : Decode.cls w = c.toNat) : w.extractLsb' 12 4 = c :=
  BitVec.eq_of_toNat_eq h

theorem fmtNNN_fields {w : Word} {c : BitVec 4} (h : Decode.cls w = c.toNat) : fmtNNN c (Decode.nnn w) = w := by
  rw [← extract_of_cls h, ← word_eq_fmtNNN]

theorem fmtXKK_fields {w : Word} {c : BitVec 4} (h : Decode.cls w = c.toNat) :
    fmtXKK c (Decode.x w) (Decode.kk w) = w := by
  rw [← extract_of_cls h, ← word_eq_fmtXKK]

theorem fmtXYN_fields {w : Word} {c : BitVec 4} (h : Decode.cls w = c.toNat) {n : Fin 16} (hn : Decode.n w = n) :
    fmtXYN c (Decode.x w) (Decode.y w) n = w := by
  rw [← extract_of_cls h, ← hn, ← word_eq_fmtXYN]

theorem fmtXFF_fields {w : Word} {c : BitVec 4} (h : Decode.cls w = c.toNat) {ff : Byte} (hf : Decode.kk w = ff) :
    fmtXFF c (Decode.x w) ff = w := by
  rw [fmtXFF_eq_fmtXKK, ← hf, fmtXKK_fields h]

/-! ### What each class of the decoder can answer (R74) -/

theorem encode_of_class0 {w : Word} {i : Instr} (h : Decode.class0 w = .ok i) : encode i = w := by
  unfold Decode.class0 at h
  split_ifs at h with h1 h2 <;> cases h
  · exact h1.symm
  · exact h2.symm

theorem encode_of_class5 {w : Word} {i : Instr} (hc : Decode.cls w = 0x5) (h : Decode.class5 w = .ok i) :
    encode i = w := by
  unfold Decode.class5 at h
  split at h <;> cases h
  exact fmtXYN_fields (c := 0x5) hc (Fin.ext ‹_›)

theorem encode_of_class8 {w : Word} {i : Instr} (hc : Decode.cls w = 0x8) (h : Decode.class8 w = .ok i) :
    encode i = w := by
  unfold Decode.class8 at h
  split at h <;> cases h <;> exact fmtXYN_fields (c := 0x8) hc (Fin.ext ‹_›)

theorem encode_of_class9 {w : Word} {i : Instr} (hc : Decode.cls w = 0x9) (h : Decode.class9 w = .ok i) :
    encode i = w := by
  unfold Decode.class9 at h
  split at h <;> cases h
  exact fmtXYN_fields (c := 0x9) hc (Fin.ext ‹_›)

theorem encode_of_classE {w : Word} {i : Instr} (hc : Decode.cls w = 0xE) (h : Decode.classE w = .ok i) :
    encode i = w := by
  unfold Decode.classE at h
  split_ifs at h <;> cases h <;> exact fmtXFF_fields (c := 0xE) hc ‹_›

theorem encode_of_classF {w : Word} {i : Instr} (hc : Decode.cls w = 0xF) (h : Decode.classF w = .ok i) :
    encode i = w := by
  unfold Decode.classF at h
  split_ifs at h <;> cases h <;> exact fmtXFF_fields (c := 0xF) hc ‹_›

/-- A word that decodes is the word of its instruction (R74). -/
theorem encode_of_decodeWord {w : Word} {i : Instr} (h : decodeWord w = .ok i) : encode i = w := by
  unfold decodeWord at h
  -- `h_k` is the branch of class `k - 1`.
  split at h
  case h_1 => exact encode_of_class0 h
  case h_2 hc => cases h; exact fmtNNN_fields (c := 0x1) hc
  case h_3 hc => cases h; exact fmtNNN_fields (c := 0x2) hc
  case h_4 hc => cases h; exact fmtXKK_fields (c := 0x3) hc
  case h_5 hc => cases h; exact fmtXKK_fields (c := 0x4) hc
  case h_6 hc => exact encode_of_class5 hc h
  case h_7 hc => cases h; exact fmtXKK_fields (c := 0x6) hc
  case h_8 hc => cases h; exact fmtXKK_fields (c := 0x7) hc
  case h_9 hc => exact encode_of_class8 hc h
  case h_10 hc => exact encode_of_class9 hc h
  case h_11 hc => cases h; exact fmtNNN_fields (c := 0xA) hc
  case h_12 hc => cases h; exact fmtNNN_fields (c := 0xB) hc
  case h_13 hc => cases h; exact fmtXKK_fields (c := 0xC) hc
  case h_14 hc => cases h; exact fmtXYN_fields (c := 0xD) hc rfl
  case h_15 hc => exact encode_of_classE hc h
  case h_16 hc => exact encode_of_classF hc h
  case h_17 => cases h

/-! ### The statements -/

/-- Settles O1: the family `RoundTrip` for the word, and the two bytes of a word are read as that word. -/
theorem decodeOfEncodeIsIdentity : Obligations.DecodeOfEncodeIsIdentity :=
  fun i rest => ⟨decodeWord_encode i, decodeBytes_bytesOfWord (decodeWord_encode i) rest⟩

/-- Settles O2: each class of the decoder reads every field that is not fixed, and a word is made of its fields. -/
theorem encodeOfDecodeIsIdentity : Obligations.EncodeOfDecodeIsIdentity :=
  fun _ _ => encode_of_decodeWord

end Sys2Proof
end

section
/-! PROOFS. The opcode map (spec 30_encoding.md R72, R75, R76, R80): the rows against the decoder and the encoder, and the
unknown words. -/

namespace Sys2Proof

open Encode

/-! ### The word of each format as its pattern and its operand fields (R80) -/

theorem fmtNNN_eq_or (c : BitVec 4) (a : Addr) : fmtNNN c a = (c ++ 0#12) ||| a.setWidth 16 := by
  apply BitVec.eq_of_getLsbD_eq
  intro k hk
  simp only [fmtNNN, BitVec.getLsbD_or, BitVec.getLsbD_append, BitVec.getLsbD_setWidth]
  interval_cases k <;> simp

theorem fmtXKK_eq_or (c : BitVec 4) (x : Reg) (kk : Byte) :
    fmtXKK c x kk = (c ++ 0#12) ||| (((nibble x).setWidth 16 <<< 8) ||| kk.setWidth 16) := by
  apply BitVec.eq_of_getLsbD_eq
  intro k hk
  simp only [fmtXKK, BitVec.getLsbD_or, BitVec.getLsbD_append, BitVec.getLsbD_setWidth, BitVec.getLsbD_shiftLeft]
  interval_cases k <;> simp

theorem fmtXYN_eq_or (c : BitVec 4) (x y : Reg) (n : Fin 16) :
    fmtXYN c x y n = (c ++ 0#8 ++ nibble n) ||| (((nibble x).setWidth 16 <<< 8) ||| ((nibble y).setWidth 16 <<< 4)) := by
  apply BitVec.eq_of_getLsbD_eq
  intro k hk
  simp only [fmtXYN, BitVec.getLsbD_or, BitVec.getLsbD_append, BitVec.getLsbD_setWidth, BitVec.getLsbD_shiftLeft]
  interval_cases k <;> simp

theorem fmtXFF_eq_or (c : BitVec 4) (x : Reg) (ff : Byte) :
    fmtXFF c x ff = (c ++ 0#4 ++ ff) ||| ((nibble x).setWidth 16 <<< 8) := by
  apply BitVec.eq_of_getLsbD_eq
  intro k hk
  simp only [fmtXFF, BitVec.getLsbD_or, BitVec.getLsbD_append, BitVec.getLsbD_setWidth, BitVec.getLsbD_shiftLeft]
  interval_cases k <;> simp

/-- The height of `Dxyn` is an operand field and no part of the pattern. -/
theorem fmtXYN_eq_or_height (c : BitVec 4) (x y : Reg) (n : Fin 16) :
    fmtXYN c x y n =
      (c ++ 0#12) ||| (((nibble x).setWidth 16 <<< 8) ||| ((nibble y).setWidth 16 <<< 4) ||| (nibble n).setWidth 16) := by
  apply BitVec.eq_of_getLsbD_eq
  intro k hk
  simp only [fmtXYN, BitVec.getLsbD_or, BitVec.getLsbD_append, BitVec.getLsbD_setWidth, BitVec.getLsbD_shiftLeft]
  interval_cases k <;> simp

theorem encode_eq_pattern_or_operandBits : ∀ i : Instr, encode i = i.row.pattern ||| i.operandBits
  | .cls | .ret => rfl
  | .jp nnn => fmtNNN_eq_or 0x1 nnn
  | .call nnn => fmtNNN_eq_or 0x2 nnn
  | .seImm x kk => fmtXKK_eq_or 0x3 x kk
  | .sneImm x kk => fmtXKK_eq_or 0x4 x kk
  | .seReg x y => fmtXYN_eq_or 0x5 x y 0x0
  | .ldImm x kk => fmtXKK_eq_or 0x6 x kk
  | .addImm x kk => fmtXKK_eq_or 0x7 x kk
  | .ldReg x y => fmtXYN_eq_or 0x8 x y 0x0
  | .or x y => fmtXYN_eq_or 0x8 x y 0x1
  | .and x y => fmtXYN_eq_or 0x8 x y 0x2
  | .xor x y => fmtXYN_eq_or 0x8 x y 0x3
  | .addReg x y => fmtXYN_eq_or 0x8 x y 0x4
  | .sub x y => fmtXYN_eq_or 0x8 x y 0x5
  | .shr x y => fmtXYN_eq_or 0x8 x y 0x6
  | .subn x y => fmtXYN_eq_or 0x8 x y 0x7
  | .shl x y => fmtXYN_eq_or 0x8 x y 0xE
  | .sneReg x y => fmtXYN_eq_or 0x9 x y 0x0
  | .ldI nnn => fmtNNN_eq_or 0xA nnn
  | .jpV0 nnn => fmtNNN_eq_or 0xB nnn
  | .rnd x kk => fmtXKK_eq_or 0xC x kk
  | .drw x y n => fmtXYN_eq_or_height 0xD x y n
  | .skp x => fmtXFF_eq_or 0xE x 0x9E
  | .sknp x => fmtXFF_eq_or 0xE x 0xA1
  | .ldVxDt x => fmtXFF_eq_or 0xF x 0x07
  | .ldVxK x => fmtXFF_eq_or 0xF x 0x0A
  | .ldDtVx x => fmtXFF_eq_or 0xF x 0x15
  | .ldStVx x => fmtXFF_eq_or 0xF x 0x18
  | .addIVx x => fmtXFF_eq_or 0xF x 0x1E
  | .ldFVx x => fmtXFF_eq_or 0xF x 0x29
  | .ldBVx x => fmtXFF_eq_or 0xF x 0x33
  | .ldMemVx x => fmtXFF_eq_or 0xF x 0x55
  | .ldVxMem x => fmtXFF_eq_or 0xF x 0x65

/-! ### The rows (R72) -/

theorem row_mem_opcodeTable (i : Instr) : i.row ∈ opcodeTable := by
  cases i <;> simp [opcodeTable, Instr.row]

theorem exists_row_eq_of_mem {r : Row} (h : r ∈ opcodeTable) : ∃ i : Instr, i.row = r := by
  simp only [opcodeTable, List.mem_append, List.mem_map] at h
  obtain ((⟨i, _, hi⟩ | ⟨i, _, hi⟩) | ⟨i, _, hi⟩) | ⟨i, _, hi⟩ := h <;> exact ⟨i, hi⟩

theorem pattern_and_mask : ∀ r ∈ opcodeTable, r.pattern &&& r.mask = r.pattern := by decide

/-- The word of an instruction matches its row: the fixed bits are those of the pattern, since the operands stay off them. -/
theorem encode_and_mask (i : Instr) : encode i &&& i.row.mask = i.row.pattern := by
  rw [encode_eq_pattern_or_operandBits, BitVec.and_or_distrib_right, pattern_and_mask _ (row_mem_opcodeTable i),
    operandBits_and_mask]
  exact BitVec.or_zero

/-! ### A word from the fixed bits of a row and its own fields, mask by mask -/

theorem cls_of_and_mask {w m p : Word} {c : BitVec 4} (h : w &&& m = p) (hm : m.extractLsb' 12 4 = 0xF)
    (hp : p.extractLsb' 12 4 = c) : Decode.cls w = c.toNat := by
  rw [← hp, ← h, BitVec.extractLsb'_and, hm]
  exact congrArg BitVec.toNat (BitVec.and_allOnes (x := w.extractLsb' 12 4)).symm

theorem cls_of_mask_F000 {w : Word} {c : BitVec 4} (h : w &&& 0xF000 = c ++ 0#12) : Decode.cls w = c.toNat :=
  cls_of_and_mask h (by decide) (BitVec.extractLsb'_append_eq_left (a := c) (b := 0#12))

theorem fmtNNN_of_mask {w : Word} {c : BitVec 4} (h : w &&& 0xF000 = c ++ 0#12) : fmtNNN c (Decode.nnn w) = w :=
  fmtNNN_fields (cls_of_mask_F000 h)

theorem fmtXKK_of_mask {w : Word} {c : BitVec 4} (h : w &&& 0xF000 = c ++ 0#12) :
    fmtXKK c (Decode.x w) (Decode.kk w) = w :=
  fmtXKK_fields (cls_of_mask_F000 h)

theorem fmtXYN_height_of_mask {w : Word} {c : BitVec 4} (h : w &&& 0xF000 = c ++ 0#12) :
    fmtXYN c (Decode.x w) (Decode.y w) (Decode.n w) = w :=
  fmtXYN_fields (cls_of_mask_F000 h) rfl

theorem fmtXYN_of_mask {w : Word} {c : BitVec 4} {n : Fin 16} (h : w &&& 0xF00F = fmtXYN c 0 0 n) :
    fmtXYN c (Decode.x w) (Decode.y w) n = w := by
  have hn : w.extractLsb' 0 4 = (w &&& 0xF00F).extractLsb' 0 4 := by
    rw [BitVec.extractLsb'_and]
    exact (BitVec.and_allOnes (x := w.extractLsb' 0 4)).symm
  refine fmtXYN_fields (cls_of_and_mask h (by decide) (extract_of_cls (Decode.cls_fmtXYN c 0 0 n))) ?_
  rw [← Decode.n_fmtXYN c 0 0 n, ← h]
  exact congrArg BitVec.toFin hn

theorem fmtXFF_of_mask {w : Word} {c : BitVec 4} {ff : Byte} (h : w &&& 0xF0FF = fmtXFF c 0 ff) :
    fmtXFF c (Decode.x w) ff = w := by
  have hk : w.extractLsb' 0 8 = (w &&& 0xF0FF).extractLsb' 0 8 := by
    rw [BitVec.extractLsb'_and]
    exact (BitVec.and_allOnes (x := w.extractLsb' 0 8)).symm
  refine fmtXFF_fields (cls_of_and_mask h (by decide) (extract_of_cls (Decode.cls_fmtXFF c 0 ff))) ?_
  rw [← Decode.kk_fmtXFF c 0 ff, ← h]
  exact hk

/-- A word that matches the row of `i` is the word of the instruction of that row with the operands that the word has. -/
theorem exists_encode_of_match (w : Word) : ∀ i : Instr, w &&& i.row.mask = i.row.pattern →
    ∃ j : Instr, encode j = w ∧ j.row = i.row
  | .cls, h => ⟨.cls, h.symm.trans BitVec.and_allOnes, rfl⟩
  | .ret, h => ⟨.ret, h.symm.trans BitVec.and_allOnes, rfl⟩
  | .jp _, h => ⟨.jp (Decode.nnn w), fmtNNN_of_mask (c := 0x1) h, rfl⟩
  | .call _, h => ⟨.call (Decode.nnn w), fmtNNN_of_mask (c := 0x2) h, rfl⟩
  | .seImm _ _, h => ⟨.seImm (Decode.x w) (Decode.kk w), fmtXKK_of_mask (c := 0x3) h, rfl⟩
  | .sneImm _ _, h => ⟨.sneImm (Decode.x w) (Decode.kk w), fmtXKK_of_mask (c := 0x4) h, rfl⟩
  | .seReg _ _, h => ⟨.seReg (Decode.x w) (Decode.y w), fmtXYN_of_mask (c := 0x5) (n := 0x0) h, rfl⟩
  | .ldImm _ _, h => ⟨.ldImm (Decode.x w) (Decode.kk w), fmtXKK_of_mask (c := 0x6) h, rfl⟩
  | .addImm _ _, h => ⟨.addImm (Decode.x w) (Decode.kk w), fmtXKK_of_mask (c := 0x7) h, rfl⟩
  | .ldReg _ _, h => ⟨.ldReg (Decode.x w) (Decode.y w), fmtXYN_of_mask (c := 0x8) (n := 0x0) h, rfl⟩
  | .or _ _, h => ⟨.or (Decode.x w) (Decode.y w), fmtXYN_of_mask (c := 0x8) (n := 0x1) h, rfl⟩
  | .and _ _, h => ⟨.and (Decode.x w) (Decode.y w), fmtXYN_of_mask (c := 0x8) (n := 0x2) h, rfl⟩
  | .xor _ _, h => ⟨.xor (Decode.x w) (Decode.y w), fmtXYN_of_mask (c := 0x8) (n := 0x3) h, rfl⟩
  | .addReg _ _, h => ⟨.addReg (Decode.x w) (Decode.y w), fmtXYN_of_mask (c := 0x8) (n := 0x4) h, rfl⟩
  | .sub _ _, h => ⟨.sub (Decode.x w) (Decode.y w), fmtXYN_of_mask (c := 0x8) (n := 0x5) h, rfl⟩
  | .shr _ _, h => ⟨.shr (Decode.x w) (Decode.y w), fmtXYN_of_mask (c := 0x8) (n := 0x6) h, rfl⟩
  | .subn _ _, h => ⟨.subn (Decode.x w) (Decode.y w), fmtXYN_of_mask (c := 0x8) (n := 0x7) h, rfl⟩
  | .shl _ _, h => ⟨.shl (Decode.x w) (Decode.y w), fmtXYN_of_mask (c := 0x8) (n := 0xE) h, rfl⟩
  | .sneReg _ _, h => ⟨.sneReg (Decode.x w) (Decode.y w), fmtXYN_of_mask (c := 0x9) (n := 0x0) h, rfl⟩
  | .ldI _, h => ⟨.ldI (Decode.nnn w), fmtNNN_of_mask (c := 0xA) h, rfl⟩
  | .jpV0 _, h => ⟨.jpV0 (Decode.nnn w), fmtNNN_of_mask (c := 0xB) h, rfl⟩
  | .rnd _ _, h => ⟨.rnd (Decode.x w) (Decode.kk w), fmtXKK_of_mask (c := 0xC) h, rfl⟩
  | .drw _ _ _, h => ⟨.drw (Decode.x w) (Decode.y w) (Decode.n w), fmtXYN_height_of_mask (c := 0xD) h, rfl⟩
  | .skp _, h => ⟨.skp (Decode.x w), fmtXFF_of_mask (c := 0xE) (ff := 0x9E) h, rfl⟩
  | .sknp _, h => ⟨.sknp (Decode.x w), fmtXFF_of_mask (c := 0xE) (ff := 0xA1) h, rfl⟩
  | .ldVxDt _, h => ⟨.ldVxDt (Decode.x w), fmtXFF_of_mask (c := 0xF) (ff := 0x07) h, rfl⟩
  | .ldVxK _, h => ⟨.ldVxK (Decode.x w), fmtXFF_of_mask (c := 0xF) (ff := 0x0A) h, rfl⟩
  | .ldDtVx _, h => ⟨.ldDtVx (Decode.x w), fmtXFF_of_mask (c := 0xF) (ff := 0x15) h, rfl⟩
  | .ldStVx _, h => ⟨.ldStVx (Decode.x w), fmtXFF_of_mask (c := 0xF) (ff := 0x18) h, rfl⟩
  | .addIVx _, h => ⟨.addIVx (Decode.x w), fmtXFF_of_mask (c := 0xF) (ff := 0x1E) h, rfl⟩
  | .ldFVx _, h => ⟨.ldFVx (Decode.x w), fmtXFF_of_mask (c := 0xF) (ff := 0x29) h, rfl⟩
  | .ldBVx _, h => ⟨.ldBVx (Decode.x w), fmtXFF_of_mask (c := 0xF) (ff := 0x33) h, rfl⟩
  | .ldMemVx _, h => ⟨.ldMemVx (Decode.x w), fmtXFF_of_mask (c := 0xF) (ff := 0x55) h, rfl⟩
  | .ldVxMem _, h => ⟨.ldVxMem (Decode.x w), fmtXFF_of_mask (c := 0xF) (ff := 0x65) h, rfl⟩

/-! ### The unknown words (R76) -/

namespace Decode

theorem cls_eq_div (w : Word) : cls w = w.toNat / 0x1000 := by
  have := w.isLt
  simp only [cls, BitVec.extractLsb'_toNat, Nat.shiftRight_eq_div_pow]
  omega

theorem n_val (w : Word) : (n w).val = w.toNat % 16 := BitVec.extractLsb'_toNat 0 4 w

theorem toNat_kk (w : Word) : (kk w).toNat = w.toNat % 256 := BitVec.extractLsb'_toNat 0 8 w

theorem kk_eq_iff (w : Word) (b : Byte) : kk w = b ↔ w.toNat % 256 = b.toNat := by
  rw [← toNat_kk, BitVec.toNat_inj]

theorem class0_eq_error_iff (w : Word) :
    class0 w = .error (.unknownOpcode w) ↔ w ≠ 0x00E0 ∧ w ≠ 0x00EE := by
  unfold class0
  split_ifs with h1 h2 <;> simp_all

theorem class5_eq_error_iff (w : Word) : class5 w = .error (.unknownOpcode w) ↔ w.toNat % 16 ≠ 0 := by
  rw [← n_val]
  unfold class5
  split <;> simp_all

theorem class9_eq_error_iff (w : Word) : class9 w = .error (.unknownOpcode w) ↔ w.toNat % 16 ≠ 0 := by
  rw [← n_val]
  unfold class9
  split <;> simp_all

theorem class8_eq_error_iff (w : Word) :
    class8 w = .error (.unknownOpcode w) ↔ w.toNat % 16 ∈ [0x8, 0x9, 0xA, 0xB, 0xC, 0xD, 0xF] := by
  have hlt := (n w).isLt
  rw [← n_val]
  unfold class8
  split
  case h_10 =>
    simp only [List.mem_cons, List.not_mem_nil, or_false, true_iff]
    simp only [imp_false] at *
    omega
  all_goals simp_all

theorem classE_eq_error_iff (w : Word) :
    classE w = .error (.unknownOpcode w) ↔ w.toNat % 256 ∉ [0x9E, 0xA1] := by
  unfold classE
  simp only [kk_eq_iff]
  split_ifs <;> simp_all

theorem classF_eq_error_iff (w : Word) : classF w = .error (.unknownOpcode w) ↔
    w.toNat % 256 ∉ [0x07, 0x0A, 0x15, 0x18, 0x1E, 0x29, 0x33, 0x55, 0x65] := by
  unfold classF
  simp only [kk_eq_iff]
  split_ifs <;> simp_all

/-! A class rejects a word by its own value. -/

variable {w : Word} {e : DecodeReject}

theorem reject_of_class0 (h : class0 w = .error e) : e = .unknownOpcode w := by
  unfold class0 at h
  split_ifs at h
  exact (Except.error.inj h).symm

theorem reject_of_class5 (h : class5 w = .error e) : e = .unknownOpcode w := by
  unfold class5 at h
  split at h <;> cases h
  rfl

theorem reject_of_class8 (h : class8 w = .error e) : e = .unknownOpcode w := by
  unfold class8 at h
  split at h <;> cases h
  rfl

theorem reject_of_class9 (h : class9 w = .error e) : e = .unknownOpcode w := by
  unfold class9 at h
  split at h <;> cases h
  rfl

theorem reject_of_classE (h : classE w = .error e) : e = .unknownOpcode w := by
  unfold classE at h
  split_ifs at h
  exact (Except.error.inj h).symm

theorem reject_of_classF (h : classF w = .error e) : e = .unknownOpcode w := by
  unfold classF at h
  split_ifs at h
  exact (Except.error.inj h).symm

end Decode

theorem reject_of_decodeWord {w : Word} {e : DecodeReject} (h : decodeWord w = .error e) : e = .unknownOpcode w := by
  unfold decodeWord at h
  -- `h_k` is the branch of class `k - 1`; the classes that are not named reject no word.
  split at h
  case h_1 => exact Decode.reject_of_class0 h
  case h_6 => exact Decode.reject_of_class5 h
  case h_9 => exact Decode.reject_of_class8 h
  case h_10 => exact Decode.reject_of_class9 h
  case h_15 => exact Decode.reject_of_classE h
  case h_16 => exact Decode.reject_of_classF h
  case h_17 => exact (Except.error.inj h).symm
  all_goals cases h

/-! ### The statements -/

/-- Settles O3: the word of an instruction has the fixed bits of its row, a word with the fixed bits of a row is the word of an
instruction of that row, and what the decoder does not read it rejects by its own value. -/
theorem decoderAgreesWithOpcodeTable : Obligations.DecoderAgreesWithOpcodeTable := by
  intro w
  have hrow : ∀ i, decodeWord w = .ok i → i.row ∈ opcodeTable ∧ w &&& i.row.mask = i.row.pattern :=
    fun i h => ⟨row_mem_opcodeTable i, encode_of_decodeWord h ▸ encode_and_mask i⟩
  refine ⟨hrow, fun r hr hmatch => ?_, fun hnone => ?_⟩
  · obtain ⟨i, rfl⟩ := exists_row_eq_of_mem hr
    obtain ⟨j, hj, hrow⟩ := exists_encode_of_match w i hmatch
    exact ⟨j, decodeWord_of_encode_eq hj, hrow⟩
  · cases h : decodeWord w with
    | ok i => exact absurd (hrow i h).2 (hnone _ (hrow i h).1)
    | error e => rw [reject_of_decodeWord h]

/-- Settles O4: class by class, on the digits that the decoder looks at. -/
theorem unknownWordsByClass : Obligations.UnknownWordsByClass := by
  intro w
  have h0 : w.toNat < 0x1000 ↔ w.toNat / 0x1000 = 0 := by omega
  rw [h0, ← Decode.cls_eq_div]
  unfold decodeWord
  -- `h_k` is the branch of class `k - 1`; no word of the classes that are not named is unknown.
  split
  case h_1 hc => simp [hc, Decode.class0_eq_error_iff]
  case h_6 hc => simp [hc, Decode.class5_eq_error_iff]
  case h_9 hc => simp [hc, Decode.class8_eq_error_iff]
  case h_10 hc => simp [hc, Decode.class9_eq_error_iff]
  case h_15 hc => simp [hc, Decode.classE_eq_error_iff]
  case h_16 hc => simp [hc, Decode.classF_eq_error_iff]
  case h_17 =>
    have hlt : Decode.cls w < 16 := (w.extractLsb' 12 4).isLt
    simp only [imp_false] at *
    omega
  all_goals simp [*]

/-- Settles O5: each format is its pattern with the operand fields shifted in. -/
theorem encodingIsPatternWithOperandFields : Obligations.EncodingIsPatternWithOperandFields :=
  encode_eq_pattern_or_operandBits

/-- Settles O6: nine closed words, which the decoder evaluates. -/
theorem sampleWordsDecode : Obligations.SampleWordsDecode := by
  refine ⟨?_, ?_, ?_, ?_, ?_, ?_, ?_, ?_, ?_⟩ <;> decide

end Sys2Proof
end

section
/-! PROOFS. The meanings as updates of the state (spec 40_cycle.md R94), one equation per instruction, beside those that stand
with the statements above. -/

namespace Sys2Proof.Machine

/-! ### Control transfer (R110, R112, R117) -/

/-- A stack pointer is 0, or one more than the number of a slot. -/
theorem State.sp_eq_zero_or_succ (s : State) : s.sp.val = 0 ∨ ∃ j : Fin 16, s.sp.val = j.val + 1 := by
  have := s.sp.isLt
  by_cases h : s.sp.val = 0
  · exact .inl h
  · exact .inr ⟨⟨s.sp.val - 1, by omega⟩, by simp only; omega⟩

/-- A stack pointer is 16, or the number of a slot. -/
theorem State.sp_eq_full_or_slot (s : State) : s.sp.val = 16 ∨ ∃ j : Fin 16, s.sp.val = j.val := by
  have := s.sp.isLt
  by_cases h : s.sp.val = 16
  · exact .inl h
  · exact .inr ⟨⟨s.sp.val, by omega⟩, rfl⟩

theorem exec_ret_of_empty {s : State} (h : s.sp.val = 0) :
    exec .ret s = .next (s.raiseFatal .stackUnderflow 0x00EE) := by
  simp only [exec, execRet, s.pop_of_empty h]

theorem exec_ret_of_succ {s : State} {j : Fin 16} (h : s.sp.val = j.val + 1) :
    exec .ret s = .next ((s.setStack j.castSucc s.stack).setPc s.stack[j.val].toNat) := by
  simp only [exec, execRet, s.pop_of_pos (h ▸ j.val.succ_pos), h, Nat.add_sub_cancel]
  rfl

theorem exec_call_of_full {s : State} (nnn : Addr) (h : s.sp.val = 16) :
    exec (.call nnn) s = .next (s.raiseFatal .stackOverflow (encode (.call nnn))) := by
  simp only [exec, execCall, s.push_of_full _ h]

theorem exec_call_of_slot {s : State} (nnn : Addr) {j : Fin 16} (h : s.sp.val = j.val) :
    exec (.call nnn) s = .next ((s.setStack j.succ (s.stack.set j.val s.pc)).setPc nnn.toNat) := by
  simp only [exec, execCall, s.push_of_lt _ (h ▸ j.isLt), h]
  rfl

theorem exec_jpV0 (nnn : Addr) (s : State) :
    exec (.jpV0 nnn) s = .next (s.setPc (nnn.toNat + (s.getV 0).toNat)) := rfl

/-! ### Logic, arithmetic, shifts, random (R133 to R141) -/

theorem exec_or (x y : Reg) (s : State) : exec (.or x y) s = .next (s.setV x (s.getV x ||| s.getV y)) := rfl

theorem exec_and (x y : Reg) (s : State) : exec (.and x y) s = .next (s.setV x (s.getV x &&& s.getV y)) := rfl

theorem exec_xor (x y : Reg) (s : State) : exec (.xor x y) s = .next (s.setV x (s.getV x ^^^ s.getV y)) := rfl

theorem exec_addReg (x y : Reg) (s : State) : exec (.addReg x y) s =
    .next (s.setResultFlag x (s.getV x + s.getV y) (carryFlag (s.getV x) (s.getV y))) := rfl

theorem exec_sub (x y : Reg) (s : State) : exec (.sub x y) s =
    .next (s.setResultFlag x (s.getV x - s.getV y) (greaterFlag (s.getV x) (s.getV y))) := rfl

theorem exec_shr (x y : Reg) (s : State) : exec (.shr x y) s =
    .next (s.setResultFlag x (s.getV x >>> 1) (lowBitFlag (s.getV x))) := rfl

theorem exec_subn (x y : Reg) (s : State) : exec (.subn x y) s =
    .next (s.setResultFlag x (s.getV y - s.getV x) (greaterFlag (s.getV y) (s.getV x))) := rfl

theorem exec_shl (x y : Reg) (s : State) : exec (.shl x y) s =
    .next (s.setResultFlag x (s.getV x <<< 1) (highBitFlag (s.getV x))) := rfl

theorem exec_rnd (x : Reg) (kk : Byte) (s : State) : exec (.rnd x kk) s = .next (s.setV x (s.inputs.rnd &&& kk)) := rfl

/-! ### Address register and memory transfers (R152 to R155) -/

theorem exec_ldFVx (x : Reg) (s : State) : exec (.ldFVx x) s = .next (s.setI (s.glyphAddr (s.getV x))) := rfl

theorem exec_ldBVx (x : Reg) (s : State) :
    exec (.ldBVx x) s = .next (s.memWriteList (s.elementAddr 0) (bcdDigits (s.getV x))) := rfl

theorem exec_ldMemVx (x : Reg) (s : State) :
    exec (.ldMemVx x) s = .next (s.memWriteList (s.elementAddr 0) (s.regsUpTo x)) := rfl

theorem exec_ldVxMem (x : Reg) (s : State) : exec (.ldVxMem x) s =
    .next (s.setRegs (Vector.ofFn fun r : Reg => if r ≤ x then s.memRead (s.elementAddr r.val) else s.getV r)) := rfl

/-! ### Display (R172, R173) -/

/-- The framebuffer that `Dxyn` leaves, and whether it turned a set pixel off. -/
def State.drawn (s : State) (x y : Reg) (n : Fin 16) : Canvas :=
  Canvas.plotRows ((s.getV x).toNat % 64) ((s.getV y).toNat % 32) 0 (s.memReadList (s.elementAddr 0) n.val) (s.fb, false)

theorem exec_drw (x y : Reg) (n : Fin 16) (s : State) : exec (.drw x y n) s =
    .next ((s.setFb (s.drawn x y n).1).setV vf (flagByte (s.drawn x y n).2)) := rfl

/-! ### Keypad and timers (R185 to R187, R190) -/

theorem exec_skp (x : Reg) (s : State) : exec (.skp x) s = .next (s.skipIf (s.keyHeld (s.getV x))) := rfl

theorem exec_sknp (x : Reg) (s : State) : exec (.sknp x) s = .next (s.skipIf (!s.keyHeld (s.getV x))) := rfl

theorem exec_ldVxK (x : Reg) (s : State) : exec (.ldVxK x) s = .next (s.setMode (.waitKey x)) := rfl

theorem exec_ldStVx (x : Reg) (s : State) : exec (.ldStVx x) s = .next (s.setSt (s.getV x)) := rfl

/-- What holds of some next state of an instruction holds of every one: there is but one. -/
theorem of_exec_next {i : Instr} {s t : State} {P : State → Prop} (h : ∃ u, exec i s = .next u ∧ P u)
    (ht : exec i s = .next t) : P t := by
  obtain ⟨u, hu, hP⟩ := h
  obtain rfl : u = t := Host.Outcome.next.inj (hu.symm.trans ht)
  exact hP

/-- A claim about the one changed element is a claim about a set that has it. -/
theorem OnlyChanges.of_eq {s t : State} {c : Elem → Prop} {a : Elem} (h : OnlyChanges s t (fun e => e = a)) (ha : c a) :
    OnlyChanges s t c :=
  h.mono fun _ he => he ▸ ha

end Sys2Proof.Machine
end

section
/-! PROOFS. The sprite draw (spec 44_display.md R172, R173): what it does to each pixel and to VF, once and twice. -/

namespace Sys2Proof.Machine

/-! ### The picture and the collision of a draw -/

/-- The pixel is under a set bit of the sprite that `Dxyn` draws from the state `s`. -/
abbrev State.spriteCovers (s : State) (x y : Reg) (n : Fin 16) (px : Fin 64) (py : Fin 32) : Prop :=
  spriteSets s ((s.getV x).toNat % 64) ((s.getV y).toNat % 32) n.val px py

section
variable (s : State) (x y : Reg) (n : Fin 16)

theorem drawn_rows_le : (s.memReadList (s.elementAddr 0) n.val).length ≤ 32 := by
  rw [State.length_memReadList]
  omega

theorem pixel_drawn_of_covers {px : Fin 64} {py : Fin 32} (h : s.spriteCovers x y n px py) :
    Framebuffer.pixel (s.drawn x y n).1 px py = !s.pixel px py := by
  have hmem := (Canvas.mem_rowPixels_iff_spriteSets s _ _ n.val px py).mpr h
  rw [State.drawn, (Canvas.plotRows_spec _ _ _ s.fb (drawn_rows_le s n)).1, decide_eq_true hmem, Bool.xor_true]
  rfl

theorem pixel_drawn_of_not_covers {px : Fin 64} {py : Fin 32} (h : ¬ s.spriteCovers x y n px py) :
    Framebuffer.pixel (s.drawn x y n).1 px py = s.pixel px py := by
  have hmem := mt (Canvas.mem_rowPixels_iff_spriteSets s _ _ n.val px py).mp h
  rw [State.drawn, (Canvas.plotRows_spec _ _ _ s.fb (drawn_rows_le s n)).1, decide_eq_false hmem, Bool.xor_false]
  rfl

theorem drawn_collision_iff :
    (s.drawn x y n).2 = true ↔ ∃ px py, s.spriteCovers x y n px py ∧ s.pixel px py = true := by
  rw [State.drawn, (Canvas.plotRows_spec _ _ _ s.fb (drawn_rows_le s n)).2]
  simp only [Canvas.mem_rowPixels_iff_spriteSets]
  rfl

/-- VF after a draw is the collision. -/
theorem getV_vf_drawn (fb : Framebuffer) (c : Bool) : ((s.setFb fb).setV vf (flagByte c)).getV 15 = flagByte c :=
  State.getV_setV_self _ vf _

end

theorem flagByte_eq_one_iff (c : Bool) : flagByte c = 0x01 ↔ c = true := by cases c <;> decide

theorem flagByte_of_true {c : Bool} (h : c = true) : flagByte c = 0x01 := by rw [h]; rfl

theorem flagByte_of_not_true {c : Bool} (h : ¬ c = true) : flagByte c = 0x00 := by rw [Bool.eq_false_of_not_eq_true h]; rfl

/-- A write to the framebuffer changes at most the pixels on which the two pictures differ. -/
theorem OnlyChanges.setFb_of_differ (s : State) (fb : Framebuffer) : OnlyChanges s (s.setFb fb)
    (fun e => ∃ px py, Framebuffer.pixel fb px py ≠ s.pixel px py ∧ e = .pixel px py) := by
  intro e he
  cases e with
  | pixel px py => exact not_not.mp fun h => he ⟨px, py, h, rfl⟩
  | _ => simp [Same]

/-- A draw changes at most VF and the pixels that the sprite covers. -/
theorem OnlyChanges.draw (s : State) (x y : Reg) (n : Fin 16) :
    OnlyChanges s ((s.setFb (s.drawn x y n).1).setV vf (flagByte (s.drawn x y n).2))
      (fun e => e = .reg vf ∨ ∃ px py, s.spriteCovers x y n px py ∧ e = .pixel px py) := by
  refine OnlyChanges.trans ((OnlyChanges.setFb_of_differ s _).mono ?_) ((OnlyChanges.setV _ vf _).mono fun _ => Or.inl)
  rintro e ⟨px, py, hdiffer, he⟩
  exact .inr ⟨px, py, not_not.mp fun h => hdiffer (pixel_drawn_of_not_covers s x y n h), he⟩

/-- The sprite depends on the memory, the parameters, `I` and the coordinate registers alone. -/
theorem spriteCovers_congr {s u : State} {x y : Reg} (hmem : u.mem = s.mem) (hpar : u.params = s.params) (hi : u.i = s.i)
    (hx : u.getV x = s.getV x) (hy : u.getV y = s.getV y) (n : Fin 16) (px : Fin 64) (py : Fin 32) :
    u.spriteCovers x y n px py ↔ s.spriteCovers x y n px py := by
  have haddr : ∀ r, u.elementAddr r = s.elementAddr r := fun r => by simp only [State.elementAddr, hi]
  simp only [State.spriteCovers, spriteSets, hx, hy, haddr, State.memRead_congr hmem hpar]

/-! ### The statements -/

/-- Settles O51: the pixels of a sprite are distinct, so each is flipped once, and VF is written last. -/
theorem drawFlipsSpriteAndSetsCollision : Obligations.DrawFlipsSpriteAndSetsCollision := by
  intro s x y n
  refine ⟨_, exec_drw x y n s, fun px py h => pixel_drawn_of_covers s x y n h,
    fun px py h => pixel_drawn_of_not_covers s x y n h, fun h => ?set, fun h => ?clear, (OnlyChanges.draw s x y n).mono ?_⟩
  case set => rw [getV_vf_drawn, flagByte_of_true ((drawn_collision_iff s x y n).mpr h)]
  case clear => rw [getV_vf_drawn, flagByte_of_not_true (mt (drawn_collision_iff s x y n).mp h)]
  rintro e (h | ⟨px, py, -, h⟩)
  · exact .inl h
  · exact .inr ⟨px, py, h⟩

/-- Settles O52: both draws cover the same pixels, so the second flips back what the first flipped, and it meets a set pixel
where the first one set it. -/
theorem drawingTwiceRestoresThePicture : Obligations.DrawingTwiceRestoresThePicture := by
  intro s t u x y n ht hfb hmem hpar hi hx hy
  obtain rfl := Host.Outcome.next.inj ((exec_drw x y n s).symm.trans ht)
  have hcovers := spriteCovers_congr (s := s) hmem hpar hi hx hy n
  have hpixel : ∀ px py, u.pixel px py = Framebuffer.pixel (s.drawn x y n).1 px py := fun px py => by
    rw [State.pixel, hfb]; rfl
  refine ⟨_, exec_drw x y n u, fun px py => ?picture, ?flag⟩
  case picture =>
    show Framebuffer.pixel (u.drawn x y n).1 px py = s.pixel px py
    by_cases h : s.spriteCovers x y n px py
    · rw [pixel_drawn_of_covers u x y n ((hcovers px py).mpr h), hpixel, pixel_drawn_of_covers s x y n h, Bool.not_not]
    · rw [pixel_drawn_of_not_covers u x y n (mt (hcovers px py).mp h), hpixel, pixel_drawn_of_not_covers s x y n h]
  case flag =>
    rw [getV_vf_drawn, flagByte_eq_one_iff, drawn_collision_iff]
    refine exists_congr fun px => exists_congr fun py => ?_
    rw [hcovers, hpixel]
    show _ ↔ s.pixel px py = false ∧ Framebuffer.pixel (s.drawn x y n).1 px py = true
    by_cases h : s.spriteCovers x y n px py
    · simp [pixel_drawn_of_covers s x y n h, h]
    · simp [pixel_drawn_of_not_covers s x y n h, h]

end Sys2Proof.Machine
end

section
/-! PROOFS. Address register and memory transfers (spec 43_index_memory.md): the glyph address, the two stores, the load, and
the fetch after a store. -/

namespace Sys2Proof.Machine

/-! ### A run of writes at `EA(0)` (R156) -/

namespace State

variable (s : State)

theorem elementAddr_zero_add (k : Nat) : (s.elementAddr 0 + k) % 4096 = s.elementAddr k := by
  simp [elementAddr]

theorem memRead_elementAddr_zero_add (t : State) (k : Nat) :
    t.memRead (s.elementAddr 0 + k) = t.memRead (s.elementAddr k) := by
  rw [← memRead_mod, elementAddr_zero_add]

/-- Byte `k` of a run at `EA(0)` reads back at `EA(k)`. -/
theorem memRead_store_at {bs : List Byte} (hlen : bs.length ≤ 4096) {k : Nat} {b : Byte} (h : bs[k]? = some b) :
    (s.memWriteList (s.elementAddr 0) bs).memRead (s.elementAddr k) = b := by
  rw [← memRead_elementAddr_zero_add, memRead_memWriteList_at bs s _ k b hlen h]

/-- Every other byte reads as before. -/
theorem memRead_store_off {bs : List Byte} {a : Nat} (h : ∀ k < bs.length, a % 4096 ≠ s.elementAddr k) :
    (s.memWriteList (s.elementAddr 0) bs).memRead a = s.memRead a := by
  refine memRead_memWriteList_off bs s _ a fun k hk heq => h k hk ?_
  rw [← heq, elementAddr_zero_add]

/-- A run of writes at `EA(0)` changes at most the bytes at `EA(0)`, `EA(1)` and so on, as many as it has. -/
theorem onlyChanges_store (bs : List Byte) : OnlyChanges s (s.memWriteList (s.elementAddr 0) bs)
    (fun e => ∃ k < bs.length, e = .byte (s.elementAddr k)) := by
  refine (OnlyChanges.memWriteList s _ bs).mono ?_
  rintro e ⟨k, hk, he⟩
  exact ⟨k, hk, by rw [he, elementAddr_zero_add]⟩

/-! ### What the two stores write: the registers (R154) and the digits (R153) -/

theorem length_regsUpTo (x : Reg) : (s.regsUpTo x).length = x.val + 1 := by
  simp only [regsUpTo, List.length_take, Vector.length_toList]
  omega

theorem getElem?_regsUpTo {x r : Reg} (h : r ≤ x) : (s.regsUpTo x)[r.val]? = some (s.getV r) := by
  have hr : r.val < x.val + 1 := Nat.lt_succ_of_le h
  simp [regsUpTo, getV, hr]

theorem memRead_ldMemVx {x r : Reg} (h : r ≤ x) :
    (s.memWriteList (s.elementAddr 0) (s.regsUpTo x)).memRead (s.elementAddr r.val) = s.getV r :=
  s.memRead_store_at (by rw [length_regsUpTo]; omega) (s.getElem?_regsUpTo h)

end State

theorem length_bcdDigits (b : Byte) : (bcdDigits b).length = 3 := rfl

/-- Digit `k` of a byte, hundreds first, is its quotient by `10 ^ (2 - k)`, mod 10 (R153). -/
theorem getElem?_bcdDigits (b : Byte) {k : Nat} (hk : k < 3) :
    ∃ d, (bcdDigits b)[k]? = some d ∧ d.toNat = b.toNat / 10 ^ (2 - k) % 10 := by
  have hb := b.isLt
  interval_cases k <;> exact ⟨_, rfl, by simp only [BitVec.toNat_ofNat]; omega⟩

theorem State.memRead_ldBVx (s : State) (x : Reg) {k : Nat} (hk : k < 3) :
    ((s.memWriteList (s.elementAddr 0) (bcdDigits (s.getV x))).memRead (s.elementAddr k)).toNat =
      (s.getV x).toNat / 10 ^ (2 - k) % 10 := by
  obtain ⟨d, hd, hval⟩ := getElem?_bcdDigits (s.getV x) hk
  rw [s.memRead_store_at (by rw [length_bcdDigits]; decide) hd, hval]

/-! ### The fetch after a store (R55, R61, R91) -/

namespace State

theorem fetchWord_div (s : State) : s.fetchWord.toNat / 256 = (s.memRead s.pc.toNat).toNat := by
  have := (s.memRead (s.pc.toNat + 1)).isLt
  rw [fetchWord, toNat_wordOfBytes]
  omega

theorem fetchWord_mod (s : State) : s.fetchWord.toNat % 256 = (s.memRead (s.pc.toNat + 1)).toNat := by
  have := (s.memRead (s.pc.toNat + 1)).isLt
  rw [fetchWord, toNat_wordOfBytes]
  omega

/-- Two addresses that are the same mod 4096 read the same byte (R51). -/
theorem memRead_of_mod_eq (t : State) {a b : Nat} (h : a % 4096 = b) : t.memRead a = t.memRead b := by
  rw [← memRead_mod, h]

/-- Where the fetch falls on `EA(k)`, it reads the byte that the run of writes left there. -/
theorem fetchWord_store (s : State) {bs : List Byte} {k b : Nat}
    (h : ((s.memWriteList (s.elementAddr 0) bs).memRead (s.elementAddr k)).toNat = b) :
    (s.pc.toNat % 4096 = s.elementAddr k → (s.memWriteList (s.elementAddr 0) bs).fetchWord.toNat / 256 = b) ∧
      ((s.pc.toNat + 1) % 4096 = s.elementAddr k →
        (s.memWriteList (s.elementAddr 0) bs).fetchWord.toNat % 256 = b) := by
  rw [fetchWord_div, fetchWord_mod, pc_memWriteList]
  exact ⟨fun ha => by rw [memRead_of_mod_eq _ ha, h], fun ha => by rw [memRead_of_mod_eq _ ha, h]⟩

/-- The fetch reads the old byte where the run of writes does not reach. -/
theorem fetchWord_store_off (s : State) (bs : List Byte) :
    ((∀ k < bs.length, s.pc.toNat % 4096 ≠ s.elementAddr k) →
      (s.memWriteList (s.elementAddr 0) bs).fetchWord.toNat / 256 = s.fetchWord.toNat / 256) ∧
    ((∀ k < bs.length, (s.pc.toNat + 1) % 4096 ≠ s.elementAddr k) →
      (s.memWriteList (s.elementAddr 0) bs).fetchWord.toNat % 256 = s.fetchWord.toNat % 256) := by
  simp only [fetchWord_div, fetchWord_mod, pc_memWriteList]
  exact ⟨fun h => by rw [memRead_store_off _ h], fun h => by rw [memRead_store_off _ h]⟩

end State

/-! ### What the load writes (R155) -/

/-- Only the registers `V0` to `Vx` differ in the file that `Fx65` writes. -/
theorem OnlyChanges.ldVxMem (s : State) (x : Reg) : OnlyChanges s
    (s.setRegs (Vector.ofFn fun r : Reg => if r ≤ x then s.memRead (s.elementAddr r.val) else s.getV r))
    (fun e => ∃ r : Reg, r ≤ x ∧ e = .reg r) := by
  refine (OnlyChanges.setRegs s _).mono ?_
  rintro e ⟨r, hdiffer, he⟩
  refine ⟨r, ?_, he⟩
  by_contra hr
  exact hdiffer (by simp [hr])

/-! ### The statements -/

/-- Settles O45: the glyph address is reduced to 12 bits, and the address register alone is written. -/
theorem pointAtGlyph : Obligations.PointAtGlyph := by
  intro s x
  refine ⟨_, exec_ldFVx x s, ?_, OnlyChanges.setI s _⟩
  rw [State.i_setI, State.glyphAddr, BitVec.toNat_ofNat]

/-- Settles O46: the three digits are read back at their addresses, and a byte is made of its decimal digits. -/
theorem storeDecimalDigits : Obligations.StoreDecimalDigits := by
  intro s x
  have hb := (s.getV x).isLt
  have h0 := s.memRead_ldBVx x (k := 0) (by decide)
  have h1 := s.memRead_ldBVx x (k := 1) (by decide)
  have h2 := s.memRead_ldBVx x (k := 2) (by decide)
  refine ⟨_, exec_ldBVx x s, ?_, ?_, ?_, ?_, s.onlyChanges_store _⟩ <;> omega

/-- Settles O47: register `r` is byte `r` of the run of writes, which changes no other byte. -/
theorem storeRegisters : Obligations.StoreRegisters := by
  intro s x
  refine ⟨_, exec_ldMemVx x s, fun r => s.memRead_ldMemVx, (s.onlyChanges_store _).mono ?_⟩
  rintro e ⟨k, hk, he⟩
  rw [State.length_regsUpTo] at hk
  exact ⟨⟨k, by omega⟩, Nat.le_of_lt_succ hk, he⟩

/-- Settles O48: the loaded registers are those up to `Vx`, the others are written back as they were. -/
theorem loadRegisters : Obligations.LoadRegisters := by
  intro s x
  refine ⟨_, exec_ldVxMem x s, fun r hr => ?_, OnlyChanges.ldVxMem s x⟩
  rw [State.getV_setRegs_ofFn, if_pos hr]

/-- Settles O49: the load reads the bytes that the store wrote, since the store leaves `I`. -/
theorem storedRegistersComeBack : Obligations.StoredRegistersComeBack := by
  intro s t u x ht hi hmem hpar
  obtain rfl := Host.Outcome.next.inj ((exec_ldMemVx x s).symm.trans ht)
  obtain ⟨w, hw, hload, -⟩ := loadRegisters u x
  refine ⟨w, hw, fun r hr => ?_⟩
  have haddr : u.elementAddr r.val = s.elementAddr r.val := by simp only [State.elementAddr, hi, State.i_memWriteList]
  rw [hload r hr, haddr, State.memRead_congr hmem hpar, s.memRead_ldMemVx hr]

/-- Settles O15: the fetch reads the bytes at `pc` and the address after it, each as the store left it. -/
theorem nextFetchSeesTheStore : Obligations.NextFetchSeesTheStore := by
  constructor
  · intro s t x ht
    obtain rfl := Host.Outcome.next.inj ((exec_ldMemVx x s).symm.trans ht)
    obtain ⟨hhigh, hlow⟩ := s.fetchWord_store_off (s.regsUpTo x)
    have hreg : ∀ k < (s.regsUpTo x).length, ∃ r : Reg, r ≤ x ∧ r.val = k := fun k hk => by
      rw [State.length_regsUpTo] at hk
      exact ⟨⟨k, by omega⟩, Nat.le_of_lt_succ hk, rfl⟩
    refine ⟨fun r hr => s.fetchWord_store (congrArg BitVec.toNat (s.memRead_ldMemVx hr)), fun h => hhigh fun k hk => ?_,
      fun h => hlow fun k hk => ?_⟩
    · obtain ⟨r, hr, rfl⟩ := hreg k hk
      exact h r hr
    · obtain ⟨r, hr, rfl⟩ := hreg k hk
      exact h r hr
  · intro s t x ht
    obtain rfl := Host.Outcome.next.inj ((exec_ldBVx x s).symm.trans ht)
    exact ⟨fun k hk => s.fetchWord_store (s.memRead_ldBVx x hk), s.fetchWord_store_off (bcdDigits (s.getV x))⟩

end Sys2Proof.Machine
end

section
/-! PROOFS. What every instruction leaves alone: the elements outside its row of the state table (spec 10_state.md section 1),
and the inputs it does not name (spec 40_cycle.md R94). -/

namespace Sys2Proof.Machine

/-! ### The frame of each instruction -/

/-- An instruction of one destination writes that register. -/
theorem OnlyChanges.setV_of {s : State} {i : Instr} {x : Reg} (b : Byte) (h : writesReg x i = true) :
    OnlyChanges s (s.setV x b) (mayWrite s i) :=
  (OnlyChanges.setV s x b).of_eq h

/-- A flag-setting instruction writes its destination and VF (R143). -/
theorem OnlyChanges.setResultFlag_of {s : State} {i : Instr} {x : Reg} (b : Byte) (f : Bool)
    (h : ∀ r, writesReg r i = (decide (r = x) || decide (r = vf))) :
    OnlyChanges s (s.setResultFlag x b f) (mayWrite s i) := by
  refine (OnlyChanges.setResultFlag s x b f).mono ?_
  rintro _ (rfl | rfl)
  · simp [mayWrite, h]
  · simp [mayWrite, h]

theorem OnlyChanges.raiseFatal_of {s : State} {c : Elem → Prop} (k : FatalKind) (w : Word) (hm : c .mode) (hf : c .fault) :
    OnlyChanges s (s.raiseFatal k w) c := by
  refine (OnlyChanges.raiseFatal s k w).mono ?_
  rintro _ (rfl | rfl)
  · exact hm
  · exact hf

/-- A return writes `sp` and `pc`, or halts (R110, R202). -/
theorem exec_ret_frame (s : State) : ∃ t, exec .ret s = .next t ∧ OnlyChanges s t (mayWrite s .ret) := by
  obtain h | ⟨j, h⟩ := s.sp_eq_zero_or_succ
  · exact ⟨_, exec_ret_of_empty h, .raiseFatal_of _ _ (by simp [mayWrite, Instr.row]) (by simp [mayWrite, Instr.row])⟩
  · exact ⟨_, exec_ret_of_succ h, .trans ((OnlyChanges.pop s _).of_eq (by simp [mayWrite, Instr.row]))
      ((OnlyChanges.setPc _ _).of_eq rfl)⟩

/-- A push writes the slot at `sp` and `sp` (R25). -/
theorem OnlyChanges.push_slot (s : State) (p : Fin 17) (w : Word) {j : Fin 16} (h : s.sp.val = j.val) :
    OnlyChanges s (s.setStack p (s.stack.set j.val w)) (fun e => e = .slot j ∨ e = .sp) := by
  have hlt : s.sp.val < 16 := h ▸ j.isLt
  obtain rfl : j = ⟨s.sp.val, hlt⟩ := Fin.ext h.symm
  exact OnlyChanges.push s p w hlt

/-- A call writes the slot at `sp`, `sp` and `pc`, or halts (R112, R201). -/
theorem exec_call_frame (nnn : Addr) (s : State) :
    ∃ t, exec (.call nnn) s = .next t ∧ OnlyChanges s t (mayWrite s (.call nnn)) := by
  obtain h | ⟨j, h⟩ := s.sp_eq_full_or_slot
  · exact ⟨_, exec_call_of_full nnn h, .raiseFatal_of _ _ (by simp [mayWrite, Instr.row]) (by simp [mayWrite, Instr.row])⟩
  · refine ⟨_, exec_call_of_slot nnn h, .trans ((OnlyChanges.push_slot s _ s.pc h).mono ?_)
      ((OnlyChanges.setPc _ _).of_eq rfl)⟩
    rintro _ (rfl | rfl)
    · exact ⟨⟨nnn, rfl⟩, h.symm⟩
    · simp [mayWrite, Instr.row]

/-- A draw writes VF and the pixels under the sprite (R172, R173). -/
theorem exec_drw_frame (x y : Reg) (n : Fin 16) (s : State) :
    ∃ t, exec (.drw x y n) s = .next t ∧ OnlyChanges s t (mayWrite s (.drw x y n)) := by
  refine ⟨_, exec_drw x y n s, (OnlyChanges.draw s x y n).mono ?_⟩
  rintro _ (rfl | ⟨px, py, hcovers, rfl⟩)
  · rfl
  · exact .inr ⟨x, y, n, rfl, hcovers⟩

theorem exec_cls_frame (s : State) : ∃ t, exec .cls s = .next t ∧ OnlyChanges s t (mayWrite s .cls) := by
  refine ⟨_, exec_cls s, (OnlyChanges.setFb s _).mono ?_⟩
  rintro _ ⟨px, py, rfl⟩
  exact .inl rfl

theorem exec_ldBVx_frame (x : Reg) (s : State) :
    ∃ t, exec (.ldBVx x) s = .next t ∧ OnlyChanges s t (mayWrite s (.ldBVx x)) := by
  refine ⟨_, exec_ldBVx x s, (s.onlyChanges_store _).mono ?_⟩
  rintro _ ⟨k, hk, rfl⟩
  exact .inl ⟨x, rfl, k, hk, rfl⟩

theorem exec_ldMemVx_frame (x : Reg) (s : State) :
    ∃ t, exec (.ldMemVx x) s = .next t ∧ OnlyChanges s t (mayWrite s (.ldMemVx x)) := by
  refine ⟨_, exec_ldMemVx x s, (s.onlyChanges_store _).mono ?_⟩
  rintro _ ⟨k, hk, rfl⟩
  rw [State.length_regsUpTo] at hk
  exact .inr ⟨x, rfl, k, Nat.le_of_lt_succ hk, rfl⟩

theorem exec_ldVxMem_frame (x : Reg) (s : State) :
    ∃ t, exec (.ldVxMem x) s = .next t ∧ OnlyChanges s t (mayWrite s (.ldVxMem x)) := by
  refine ⟨_, exec_ldVxMem x s, (OnlyChanges.ldVxMem s x).mono ?_⟩
  rintro _ ⟨r, hr, rfl⟩
  exact decide_eq_true hr

theorem exec_frame (s : State) : ∀ i : Instr, ∃ t, exec i s = .next t ∧ OnlyChanges s t (mayWrite s i)
  | .cls => exec_cls_frame s
  | .ret => exec_ret_frame s
  | .jp nnn => ⟨_, exec_jp nnn s, (OnlyChanges.setPc s _).of_eq rfl⟩
  | .call nnn => exec_call_frame nnn s
  | .seImm x kk => ⟨_, exec_seImm x kk s, (OnlyChanges.skipIf s _).of_eq rfl⟩
  | .sneImm x kk => ⟨_, exec_sneImm x kk s, (OnlyChanges.skipIf s _).of_eq rfl⟩
  | .seReg x y => ⟨_, exec_seReg x y s, (OnlyChanges.skipIf s _).of_eq rfl⟩
  | .ldImm x kk => ⟨_, exec_ldImm x kk s, .setV_of _ (decide_eq_true rfl)⟩
  | .addImm x kk => ⟨_, exec_addImm x kk s, .setV_of _ (decide_eq_true rfl)⟩
  | .ldReg x y => ⟨_, exec_ldReg x y s, .setV_of _ (decide_eq_true rfl)⟩
  | .or x y => ⟨_, exec_or x y s, .setV_of _ (decide_eq_true rfl)⟩
  | .and x y => ⟨_, exec_and x y s, .setV_of _ (decide_eq_true rfl)⟩
  | .xor x y => ⟨_, exec_xor x y s, .setV_of _ (decide_eq_true rfl)⟩
  | .addReg x y => ⟨_, exec_addReg x y s, .setResultFlag_of _ _ fun _ => rfl⟩
  | .sub x y => ⟨_, exec_sub x y s, .setResultFlag_of _ _ fun _ => rfl⟩
  | .shr x y => ⟨_, exec_shr x y s, .setResultFlag_of _ _ fun _ => rfl⟩
  | .subn x y => ⟨_, exec_subn x y s, .setResultFlag_of _ _ fun _ => rfl⟩
  | .shl x y => ⟨_, exec_shl x y s, .setResultFlag_of _ _ fun _ => rfl⟩
  | .sneReg x y => ⟨_, exec_sneReg x y s, (OnlyChanges.skipIf s _).of_eq rfl⟩
  | .ldI nnn => ⟨_, exec_ldI nnn s, (OnlyChanges.setI s _).of_eq (by simp [mayWrite, Instr.row])⟩
  | .jpV0 nnn => ⟨_, exec_jpV0 nnn s, (OnlyChanges.setPc s _).of_eq rfl⟩
  | .rnd x kk => ⟨_, exec_rnd x kk s, .setV_of _ (decide_eq_true rfl)⟩
  | .drw x y n => exec_drw_frame x y n s
  | .skp x => ⟨_, exec_skp x s, (OnlyChanges.skipIf s _).of_eq rfl⟩
  | .sknp x => ⟨_, exec_sknp x s, (OnlyChanges.skipIf s _).of_eq rfl⟩
  | .ldVxDt x => ⟨_, exec_ldVxDt x s, .setV_of _ (decide_eq_true rfl)⟩
  | .ldVxK x => ⟨_, exec_ldVxK x s, (OnlyChanges.setMode s _).of_eq (by simp [mayWrite, Instr.row])⟩
  | .ldDtVx x => ⟨_, exec_ldDtVx x s, (OnlyChanges.setDt s _).of_eq rfl⟩
  | .ldStVx x => ⟨_, exec_ldStVx x s, (OnlyChanges.setSt s _).of_eq rfl⟩
  | .addIVx x => ⟨_, exec_addIVx x s, (OnlyChanges.setI s _).of_eq (by simp [mayWrite, Instr.row])⟩
  | .ldFVx x => ⟨_, exec_ldFVx x s, (OnlyChanges.setI s _).of_eq (by simp [mayWrite, Instr.row])⟩
  | .ldBVx x => exec_ldBVx_frame x s
  | .ldMemVx x => exec_ldMemVx_frame x s
  | .ldVxMem x => exec_ldVxMem_frame x s

/-! ### The input lines: every update commutes with a change of them -/

/-- The state with its input lines changed. -/
def State.withInputs (s : State) (inp : Inputs) : State := { s with inputs := inp }

theorem withInputs_skipIf (s : State) (inp : Inputs) (c : Bool) :
    (s.withInputs inp).skipIf c = (s.skipIf c).withInputs inp := by
  cases c <;> rfl

theorem withInputs_memWriteList (inp : Inputs) (bs : List Byte) : ∀ (s : State) (a : Nat),
    (s.withInputs inp).memWriteList a bs = (s.memWriteList a bs).withInputs inp := by
  induction bs with
  | nil => intro s a; rfl
  | cons b bs ih => intro s a; exact ih (s.memWrite a b) (a + 1)

theorem exec_ret_withInputs (s : State) (inp : Inputs) :
    ∃ t, exec .ret s = .next t ∧ exec .ret (s.withInputs inp) = .next (t.withInputs inp) := by
  obtain h | ⟨j, h⟩ := s.sp_eq_zero_or_succ
  · exact ⟨_, exec_ret_of_empty h, exec_ret_of_empty (s := s.withInputs inp) h⟩
  · exact ⟨_, exec_ret_of_succ h, exec_ret_of_succ (s := s.withInputs inp) h⟩

theorem exec_call_withInputs (nnn : Addr) (s : State) (inp : Inputs) :
    ∃ t, exec (.call nnn) s = .next t ∧ exec (.call nnn) (s.withInputs inp) = .next (t.withInputs inp) := by
  obtain h | ⟨j, h⟩ := s.sp_eq_full_or_slot
  · exact ⟨_, exec_call_of_full nnn h, exec_call_of_full (s := s.withInputs inp) nnn h⟩
  · exact ⟨_, exec_call_of_slot nnn h, exec_call_of_slot (s := s.withInputs inp) nnn h⟩

theorem keyHeld_withInputs {s : State} {inp : Inputs} (h : inp.keys = s.inputs.keys) (b : Byte) :
    (s.withInputs inp).keyHeld b = s.keyHeld b :=
  congrArg (·.getLsbD (b.toNat % 16)) h

theorem exec_withInputs (s : State) (inp : Inputs) (i : Instr)
    (hkeys : (∃ x, i = .skp x ∨ i = .sknp x) → inp.keys = s.inputs.keys)
    (hrnd : (∃ x kk, i = .rnd x kk) → inp.rnd = s.inputs.rnd) :
    ∃ t, exec i s = .next t ∧ exec i (s.withInputs inp) = .next (t.withInputs inp) := by
  cases i with
  | ret => exact exec_ret_withInputs s inp
  | call nnn => exact exec_call_withInputs nnn s inp
  | seImm x kk => exact ⟨_, exec_seImm x kk s, congrArg _ (withInputs_skipIf s inp _)⟩
  | sneImm x kk => exact ⟨_, exec_sneImm x kk s, congrArg _ (withInputs_skipIf s inp _)⟩
  | seReg x y => exact ⟨_, exec_seReg x y s, congrArg _ (withInputs_skipIf s inp _)⟩
  | sneReg x y => exact ⟨_, exec_sneReg x y s, congrArg _ (withInputs_skipIf s inp _)⟩
  | skp x =>
    refine ⟨_, exec_skp x s, ?_⟩
    rw [exec_skp, keyHeld_withInputs (hkeys ⟨x, .inl rfl⟩), withInputs_skipIf]
    rfl
  | sknp x =>
    refine ⟨_, exec_sknp x s, ?_⟩
    rw [exec_sknp, keyHeld_withInputs (hkeys ⟨x, .inr rfl⟩), withInputs_skipIf]
    rfl
  | rnd x kk =>
    refine ⟨_, exec_rnd x kk s, ?_⟩
    rw [← hrnd ⟨x, kk, rfl⟩]
    rfl
  | ldBVx x => exact ⟨_, exec_ldBVx x s, congrArg _ (withInputs_memWriteList inp _ s _)⟩
  | ldMemVx x => exact ⟨_, exec_ldMemVx x s, congrArg _ (withInputs_memWriteList inp _ s _)⟩
  -- The others read no input line and branch on nothing.
  | _ => exact ⟨_, rfl, rfl⟩

/-! ### The statements -/

/-- Settles O13: the frame of each instruction is within its row of the table. -/
theorem instructionsWriteOnlyTheirElements : Obligations.InstructionsWriteOnlyTheirElements :=
  fun i s _ ht => of_exec_next (exec_frame s i) ht

/-- Settles O12: an instruction that reads an input line reads the same value from both states. -/
theorem unnamedInputsAreIgnored : Obligations.UnnamedInputsAreIgnored := by
  intro i s t inp hkeys hrnd ht
  obtain ⟨u, hu, hchanged⟩ := exec_withInputs s inp i hkeys hrnd
  obtain rfl := Host.Outcome.next.inj (hu.symm.trans ht)
  exact hchanged

end Sys2Proof.Machine
end

section
/-! PROOFS. The `Step` in each mode (spec 40_cycle.md R90 to R98, R100): what the fetch leads to, the wait-step, the halted
step. -/

namespace Sys2Proof.Machine

/-! ### What taking a transaction leaves, field by field (log 1) -/

section
variable {s s₁ : State} {tr : Transaction} (h : s.takeTransaction = (tr, s₁))
include h

theorem take_pc : s₁.pc = s.pc := by simp only [take_fields h]
theorem take_sp : s₁.sp = s.sp := by simp only [take_fields h]
theorem take_dt : s₁.dt = s.dt := by simp only [take_fields h]
theorem take_st : s₁.st = s.st := by simp only [take_fields h]
theorem take_mode : s₁.mode = s.mode := by simp only [take_fields h]
theorem take_fault : s₁.fault = s.fault := by simp only [take_fields h]
theorem take_params : s₁.params = s.params := by simp only [take_fields h]
theorem take_getV (r : Reg) : s₁.getV r = s.getV r := by simp only [State.getV, take_fields h]

end

/-! ### The fetch and the advance (R91, R92) -/

section
variable {s s₁ : State} {inp : Inputs}

/-- The state that an instruction of a `Step` acts on: the inputs presented, nothing reported, `pc` advanced. -/
theorem advance_present {tr : Transaction} (h : s.takeTransaction = (tr, s₁)) : (s₁.present inp).advance =
    { s₁ with inputs := inp, report := none, pc := BitVec.ofNat 16 ((s.pc.toNat + 2) % 4096) } := by
  rw [← take_pc h]
  rfl

theorem instrAddr_advance_present {tr : Transaction} (h : s.takeTransaction = (tr, s₁)) :
    (s₁.present inp).advance.instrAddr = BitVec.ofNat 12 s.pc.toNat := by
  rw [State.instrAddr_advance, State.pc_present, take_pc h]

theorem runInstruction_of_ok {i : Instr} (h : decodeWord s.fetchWord = .ok i) :
    s.runInstruction = exec i s.advance := by
  simp only [State.runInstruction, h]

theorem runInstruction_of_error {e : DecodeReject} (h : decodeWord s.fetchWord = .error e) :
    s.runInstruction = .next (s.advance.reportUnknown s.fetchWord) := by
  simp only [State.runInstruction, h]

/-- A `Step` in `RUNNING` that fetches the word of an instruction (R94). -/
theorem step_of_decode {i : Instr} (h : s.takeTransaction = (.step inp, s₁)) (hm : s.mode = .running)
    (hd : decodeWord s.fetchWord = .ok i) : step s = exec i (s₁.present inp).advance := by
  rw [step_running h hm, runInstruction_of_ok (by rwa [fetchWord_present h])]

/-- A `Step` in `RUNNING` that fetches an unknown word (R95). -/
theorem step_of_unknown {e : DecodeReject} (h : s.takeTransaction = (.step inp, s₁)) (hm : s.mode = .running)
    (hd : decodeWord s.fetchWord = .error e) :
    step s = .next ((s₁.present inp).advance.reportUnknown s.fetchWord) := by
  rw [step_running h hm, runInstruction_of_error (by rwa [fetchWord_present h]), fetchWord_present h]

/-! ### The other modes (R97, R98) -/

theorem step_halted (h : s.takeTransaction = (.step inp, s₁)) (hm : s.mode = .halted) :
    step s = .next (s₁.present inp) := by
  have hmode : (s₁.present inp).mode = .halted := (take_mode h).trans hm
  simp only [step_of_take h, State.transact, State.coreStep, hmode]

theorem step_waiting {r : Reg} (h : s.takeTransaction = (.step inp, s₁)) (hm : s.mode = .waitKey r) :
    step s = .next ((s₁.present inp).waitStep r) := by
  have hmode : (s₁.present inp).mode = .waitKey r := (take_mode h).trans hm
  simp only [step_of_take h, State.transact, State.coreStep, hmode]

/-- Everything a `Step` can do. -/
theorem step_cases {t : State} (h : s.takeTransaction = (.step inp, s₁)) (ht : step s = .next t) :
    (s.mode = .halted ∧ t = s₁.present inp) ∨
    (∃ r, s.mode = .waitKey r ∧ t = (s₁.present inp).waitStep r) ∨
    (s.mode = .running ∧ ∃ i, decodeWord s.fetchWord = .ok i ∧ exec i (s₁.present inp).advance = .next t) ∨
    (s.mode = .running ∧ t = (s₁.present inp).advance.reportUnknown s.fetchWord) := by
  cases hm : s.mode with
  | halted => exact .inl ⟨rfl, (Host.Outcome.next.inj ((step_halted h hm).symm.trans ht)).symm⟩
  | waitKey r => exact .inr (.inl ⟨r, rfl, (Host.Outcome.next.inj ((step_waiting h hm).symm.trans ht)).symm⟩)
  | running =>
    cases hd : decodeWord s.fetchWord with
    | ok i => exact .inr (.inr (.inl ⟨rfl, i, rfl, (step_of_decode h hm hd).symm.trans ht⟩))
    | error e =>
      exact .inr (.inr (.inr ⟨rfl, (Host.Outcome.next.inj ((step_of_unknown h hm hd).symm.trans ht)).symm⟩))

/-- The wait-step changes at most the latched register and the mode (R97). -/
theorem onlyChanges_waitStep (s : State) (r : Reg) :
    OnlyChanges s (s.waitStep r) (fun e => e = .reg r ∨ e = .mode) := by
  cases hk : s.inputs.keyPress with
  | none => rw [s.waitStep_none hk r]; exact OnlyChanges.refl s _
  | some k =>
    rw [s.waitStep_some hk r]
    exact ((OnlyChanges.setV s r _).of_eq (.inl rfl)).trans ((OnlyChanges.setMode _ _).of_eq (.inr rfl))

end

/-! ### A step always answers a next state -/

theorem coreStep_next (s : State) : ∃ t, s.coreStep = .next t := by
  unfold State.coreStep
  split
  · exact ⟨_, rfl⟩
  · exact ⟨_, rfl⟩
  · cases hd : decodeWord s.fetchWord with
    | ok i => exact runInstruction_of_ok hd ▸ exec_next i _
    | error e => exact ⟨_, runInstruction_of_error hd⟩

theorem transact_next (s : State) : ∀ tr : Transaction, ∃ t, s.transact tr = .next t
  | .step inp => coreStep_next (s.present inp)
  | .tick => ⟨_, rfl⟩
  | .load _ => ⟨_, rfl⟩
  | .reset => ⟨_, rfl⟩

/-! ### The word of a jump (R75, R111) -/

/-- The word whose value is 0x1000 + a, for a 12-bit address `a`, is the jump to `a`. -/
theorem decodeWord_jp_of_toNat {w : Word} {a : Nat} (ha : a < 4096) (h : w.toNat = 0x1000 + a) :
    decodeWord w = .ok (.jp (BitVec.ofNat 12 a)) := by
  refine decodeWord_of_encode_eq (BitVec.eq_of_toNat_eq ?_)
  show (0x1#4 ++ BitVec.ofNat 12 a).toNat = w.toNat
  rw [h, BitVec.toNat_append, ← Nat.shiftLeft_add_eq_or_of_lt (BitVec.isLt _), BitVec.toNat_ofNat a 12,
    Nat.mod_eq_of_lt ha]
  rfl

/-! ### The two timers and the instructions that load them (R26, R27) -/

theorem exists_ldDtVx_of_mnemonic {i : Instr} (h : i.row.mnemonic = "LD_DT_VX") : ∃ x, i = .ldDtVx x := by
  cases i with
  | ldDtVx x => exact ⟨x, rfl⟩
  | _ => simp [Instr.row] at h

theorem exists_ldStVx_of_mnemonic {i : Instr} (h : i.row.mnemonic = "LD_ST_VX") : ∃ x, i = .ldStVx x := by
  cases i with
  | ldStVx x => exact ⟨x, rfl⟩
  | _ => simp [Instr.row] at h

theorem dt_of_exec {i : Instr} {s t : State} (ht : exec i s = .next t) :
    t.dt = s.dt ∨ ∃ x, i = .ldDtVx x ∧ t.dt = s.getV x := by
  by_cases h : i.row.mnemonic = "LD_DT_VX"
  · obtain ⟨x, rfl⟩ := exists_ldDtVx_of_mnemonic h
    exact .inr ⟨x, rfl, of_exec_next (P := fun t => t.dt = s.getV x) ⟨_, exec_ldDtVx x s, rfl⟩ ht⟩
  · exact .inl (of_exec_next (exec_frame s i) ht .dt h)

theorem st_of_exec {i : Instr} {s t : State} (ht : exec i s = .next t) :
    t.st = s.st ∨ ∃ x, i = .ldStVx x ∧ t.st = s.getV x := by
  by_cases h : i.row.mnemonic = "LD_ST_VX"
  · obtain ⟨x, rfl⟩ := exists_ldStVx_of_mnemonic h
    exact .inr ⟨x, rfl, of_exec_next (P := fun t => t.st = s.getV x) ⟨_, exec_ldStVx x s, rfl⟩ ht⟩
  · exact .inl (of_exec_next (exec_frame s i) ht .st h)

/-! ### The statements -/

/-- Settles O7: the word that the fetch reads is the one before the transaction was taken. -/
theorem stepExecutesDecodedInstruction : Obligations.StepExecutesDecodedInstruction := by
  intro s s₁ inp i htake hm hd
  rw [step_of_decode htake hm hd, advance_present htake]

/-- Settles O8: the reported address is two below the advanced `pc`, which is the address of the fetch. -/
theorem unknownOpcodeIsReportedAndSkipped : Obligations.UnknownOpcodeIsReportedAndSkipped := by
  rintro s s₁ inp w htake hm rfl hnone
  cases hd : decodeWord s.fetchWord with
  | ok i => exact absurd hd (hnone i)
  | error e =>
    rw [step_of_unknown htake hm hd, State.reportUnknown, instrAddr_advance_present htake, advance_present htake]
    rfl

/-- Settles O9: presenting the inputs is all that the step does. -/
theorem stepInHaltedChangesNothing : Obligations.StepInHaltedChangesNothing :=
  fun _ _ _ htake hm => step_halted htake hm

/-- Settles O10: a key number is below 256, so it stands in the register as it is. -/
theorem waitStepConsumesKeyPress : Obligations.WaitStepConsumesKeyPress := by
  intro s s₁ inp r htake hm
  have hstep := step_waiting htake hm
  refine ⟨fun hnone => ?none, fun k hk => ⟨_, hstep, ?some⟩⟩
  case none => exact hstep.trans (congrArg _ ((s₁.present inp).waitStep_none hnone r))
  case some =>
    have hframe : OnlyChanges s₁ ((s₁.present inp).waitStep r)
        (fun e => e = .reg r ∨ e = .mode ∨ e = .inputs ∨ e = .report) :=
      ((OnlyChanges.present s₁ inp).mono fun _ he => .inr (.inr he)).trans
        ((onlyChanges_waitStep _ r).mono fun _ he => he.imp_right .inl)
    refine ⟨?_, ?_, ?_, ?_, hframe⟩ <;> rw [(s₁.present inp).waitStep_some hk r]
    · rw [State.getV_setMode, State.getV_setV_self, BitVec.toNat_ofNat]
      omega
    · rfl
    · rfl
    · rfl

/-- Settles O11: no meaning and no transaction stops the model. -/
theorem everyStepAnswersNext : Obligations.EveryStepAnswersNext := fun _ => transact_next _ _

/-- Settles O14: the jump writes the address of the fetch to `pc`, where it stood before the advance. -/
theorem selfJumpChangesNothing : Obligations.SelfJumpChangesNothing := by
  intro s s₁ inp htake hm hlt hword
  have hback : BitVec.ofNat 16 ((BitVec.ofNat 12 s.pc.toNat).toNat % 4096) = s₁.pc := by
    apply BitVec.eq_of_toNat_eq
    simp only [BitVec.toNat_ofNat, take_pc htake]
    omega
  rw [step_of_decode htake hm (decodeWord_jp_of_toNat hlt hword), exec_jp, advance_present htake, State.setPc, hback]

/-- Settles O18: in every mode but `RUNNING` a step leaves the timers, and in `RUNNING` only the two loads write one. -/
theorem stepChangesTimersOnlyByTheirLoads : Obligations.StepChangesTimersOnlyByTheirLoads := by
  intro s s₁ t inp htake ht
  have hdt := take_dt htake
  have hst := take_st htake
  obtain ⟨-, rfl⟩ | ⟨r, -, rfl⟩ | ⟨hm, i, hd, hexec⟩ | ⟨-, rfl⟩ := step_cases htake ht
  · exact ⟨.inl hdt, .inl hst⟩
  · have hframe := onlyChanges_waitStep (s₁.present inp) r
    exact ⟨.inl ((hframe .dt (by simp)).trans hdt), .inl ((hframe .st (by simp)).trans hst)⟩
  · constructor
    · obtain h | ⟨x, rfl, h⟩ := dt_of_exec hexec
      · exact .inl (h.trans hdt)
      · exact .inr ⟨x, hm, hd, h.trans (take_getV htake x)⟩
    · obtain h | ⟨x, rfl, h⟩ := st_of_exec hexec
      · exact .inl (h.trans hst)
      · exact .inr ⟨x, hm, hd, h.trans (take_getV htake x)⟩
  · exact ⟨.inl hdt, .inl hst⟩

end Sys2Proof.Machine
end

section
/-! PROOFS. `Tick`, `Load` and `Reset` (spec 45_timers_keypad.md R191, 20_memory.md R62, 70_reset_and_hazards.md R230), and what
leaves `HALTED`. -/

namespace Sys2Proof.Machine

/-! ### Tick (R191) -/

/-- The state that a `Tick` leaves. -/
def State.ticked (s : State) : State := s.tick.setReport none

theorem step_tick {s s₁ : State} (h : s.takeTransaction = (.tick, s₁)) : step s = .next s₁.ticked := step_of_take h

theorem toNat_dt_ticked (s : State) : s.ticked.dt.toNat = s.dt.toNat - 1 := toNat_countDown s.dt

theorem toNat_st_ticked (s : State) : s.ticked.st.toNat = s.st.toNat - 1 := toNat_countDown s.st

theorem OnlyChanges.ticked (s : State) : OnlyChanges s s.ticked (fun e => e = .dt ∨ e = .st ∨ e = .report) :=
  (((OnlyChanges.setDt s _).of_eq (.inl rfl)).trans ((OnlyChanges.setSt _ _).of_eq (.inr (.inl rfl)))).trans
    ((OnlyChanges.setReport _ _).of_eq (.inr (.inr rfl)))

/-! ### Load (R62, R204) -/

theorem step_load {s s₁ : State} {image : List Byte} (h : s.takeTransaction = (.load image, s₁)) :
    step s = .next (s₁.load image) := step_of_take h

theorem imageWellFormed_iff (image : List Byte) : imageWellFormed image = true ↔ image.length ≤ 3584 := by
  simp [imageWellFormed]

theorem load_of_fits {image : List Byte} (h : imageWellFormed image = true) (s : State) :
    s.load image = (s.memWriteList 0x200 image).setReport (some .loadOk) := by
  simp only [State.load, h, if_true]

theorem load_of_too_large {image : List Byte} (h : ¬ imageWellFormed image = true) (s : State) :
    s.load image = s.setReport (some (.romTooLarge image.length)) := by
  simp only [State.load, h, if_false, Bool.false_eq_true]

/-- A `Load` changes at most the report and, where the image fits, the bytes it copies to. -/
theorem OnlyChanges.load (s : State) (image : List Byte) : OnlyChanges s (s.load image)
    (fun e => e = .report ∨ (imageWellFormed image = true ∧ ∃ k < image.length, e = .byte (0x200 + k))) := by
  by_cases h : imageWellFormed image = true
  · have hlen := (imageWellFormed_iff image).mp h
    rw [load_of_fits h]
    refine OnlyChanges.trans ((OnlyChanges.memWriteList s _ image).mono ?_) ((OnlyChanges.setReport _ _).of_eq (.inl rfl))
    rintro e ⟨k, hk, he⟩
    exact .inr ⟨h, k, hk, by rw [he, Nat.mod_eq_of_lt (by omega)]⟩
  · rw [load_of_too_large h]
    exact (OnlyChanges.setReport s _).of_eq (.inl rfl)

/-! ### Reset and the memory after it (R34, R63, R230) -/

theorem step_reset {s s₁ : State} (h : s.takeTransaction = (.reset, s₁)) : step s = .next s₁.resetCore := step_of_take h

theorem fontBase_add_le {p : Params} (h : p.wellFormed = true) : p.fontBase + 80 ≤ 0x200 := of_decide_eq_true h

theorem memReset_font (p : Params) (j : Fin 80) : memReset p (p.fontBase + j.val) = p.fontData[j.val] := by
  rw [memReset, if_pos (Nat.le_add_right _ _), Nat.add_sub_cancel_left, Vector.getElem?_eq_getElem j.isLt]
  rfl

theorem memReset_of_off_font {p : Params} {a : Nat} (h : ∀ j : Fin 80, a ≠ p.fontBase + j.val) :
    memReset p a = p.memInit := by
  unfold memReset
  split
  case isTrue hle =>
    have hout : ¬ a - p.fontBase < 80 := fun hlt => h ⟨a - p.fontBase, hlt⟩ (by simp only; omega)
    rw [Vector.getElem?_eq_none (by omega)]
    rfl
  case isFalse => rfl

/-- A state that lists no byte reads every byte as its content after `Reset`. -/
theorem memRead_of_mem_nil {s : State} (h : s.mem = []) {a : Nat} (ha : a < 4096) :
    s.memRead a = memReset s.params a := by
  rw [State.memRead, h, Nat.mod_eq_of_lt ha]
  rfl

@[simp] theorem getV_reset (r : Reg) : State.reset.getV r = 0x00 := Vector.getElem_replicate r.isLt

@[simp] theorem stack_reset (j : Fin 16) : State.reset.stack[j.val] = 0x0000 := Vector.getElem_replicate j.isLt

@[simp] theorem pixel_reset (x : Fin 64) (y : Fin 32) : State.reset.pixel x y = false := Framebuffer.pixel_blank x y

/-! ### The statements -/

/-- Settles O16: each timer counts down by one, and nothing else is written. -/
theorem tickDecrementsTimers : Obligations.TickDecrementsTimers := by
  intro s s₁ htake
  refine ⟨_, step_tick htake, ?_, ?_, rfl, OnlyChanges.ticked s₁⟩
  · rw [toNat_dt_ticked, take_dt htake]
  · rw [toNat_st_ticked, take_st htake]

/-- Settles O17, by induction on the number of ticks: the first tick takes 1 off, and the others start from what it left. -/
theorem ticksDrainTimersToZero : Obligations.TicksDrainTimersToZero := by
  intro s n rest
  induction n generalizing s with
  | zero => intro hsched; exact ⟨s, rfl, rfl, rfl, hsched, rfl, OnlyChanges.refl s _⟩
  | succ n ih =>
    intro hsched
    rw [List.replicate_succ, List.cons_append] at hsched
    have htake := s.takeTransaction_cons hsched
    obtain ⟨t, hrun, hdt, hst, hrest, hfree, hframe⟩ :=
      ih (State.ticked { s with schedule := List.replicate n .tick ++ rest }) rfl
    refine ⟨t, (run_succ (step_tick htake) n).trans hrun, ?_, ?_, hrest, hfree, ?_⟩
    · rw [hdt, toNat_dt_ticked, Nat.sub_sub, Nat.add_comm]
    · rw [hst, toNat_st_ticked, Nat.sub_sub, Nat.add_comm]
    · refine OnlyChanges.trans ((OnlyChanges.take htake).of_eq (by simp)) (.trans ((OnlyChanges.ticked _).mono ?_) hframe)
      rintro e (he | he | he) <;> simp [he]

/-- Settles O19: byte `k` of the run of writes reads back at 0x200 + `k`. -/
theorem loadCopiesTheImage : Obligations.LoadCopiesTheImage := by
  intro s s₁ image htake hlen
  have hfits := (imageWellFormed_iff image).mpr hlen
  refine ⟨_, step_load htake, fun k b hb => ?_, ?_, (OnlyChanges.load s₁ image).mono fun e he => he.imp_right And.right⟩
  · rw [load_of_fits hfits, State.memRead_setReport, State.memRead_memWriteList_at image s₁ 0x200 k b (by omega) hb]
  · rw [load_of_fits hfits, State.report_setReport]

/-- Settles O20: the bound check comes before any write. -/
theorem loadRefusesTooLargeImage : Obligations.LoadRefusesTooLargeImage := by
  intro s s₁ image htake hlen
  rw [step_load htake, load_of_too_large fun h => absurd ((imageWellFormed_iff image).mp h) (by omega)]
  rfl

/-- Settles O21: a state that lists no byte reads the font at `FONT_BASE` and `MEM_INIT` elsewhere. -/
theorem resetSetsEveryElement : Obligations.ResetSetsEveryElement := by
  intro s s₁ htake hwf
  have hpar := take_params htake
  have hmem : ∀ a < 4096, s₁.resetCore.memRead a = memReset s.params a := fun a ha => by
    rw [memRead_of_mem_nil rfl ha, ← hpar]
    rfl
  have hbase := fontBase_add_le hwf
  refine ⟨_, step_reset htake, getV_reset, rfl, rfl, rfl, stack_reset, rfl, rfl, rfl, pixel_reset, fun j => ?font,
    fun a ha hoff => ?off, rfl, rfl, rfl, rfl, ⟨rfl, rfl⟩, rfl⟩
  case font => rw [hmem _ (by omega), memReset_font]
  case off => rw [hmem a ha, memReset_of_off_font hoff]

/-- Settles O22: the fields of `State.reset`, and the default font at 0x000. -/
theorem resetStateHoldsTheResetValues : Obligations.ResetStateHoldsTheResetValues := by
  refine ⟨getV_reset, rfl, rfl, rfl, stack_reset, rfl, rfl, pixel_reset, rfl, rfl, by decide, by decide, by decide,
    by decide, by decide, fun a hfont hlt => ?_⟩
  rw [memRead_of_mem_nil rfl hlt]
  exact memReset_of_off_font fun j => by
    have hbase : State.reset.params.fontBase = 0 := rfl
    omega

/-- Settles O25: a `Step` presents its inputs only, a `Tick` and a `Load` never look at the mode. -/
theorem onlyResetLeavesHalted : Obligations.OnlyResetLeavesHalted := by
  intro s s₁ tr hm htake hreset
  have hmode : s₁.mode = .halted := (take_mode htake).trans hm
  have hfault := take_fault htake
  cases tr with
  | step inp =>
    refine ⟨_, step_halted htake hm, hmode, hfault, (OnlyChanges.present s₁ inp).mono ?_⟩
    rintro e (he | he) <;> simp [he]
  | tick =>
    refine ⟨_, step_tick htake, hmode, hfault, (OnlyChanges.ticked s₁).mono ?_⟩
    rintro e (he | he | he) <;> simp [he]
  | load image =>
    have hframe := OnlyChanges.load s₁ image
    refine ⟨_, step_load htake, (hframe .mode (by simp)).trans hmode, (hframe .fault (by simp)).trans hfault,
      hframe.mono ?_⟩
    rintro e (he | ⟨hfits, hbyte⟩)
    · exact .inr (.inl he)
    · exact .inr (.inr (.inr ⟨image, rfl, hfits, hbyte⟩))
  | reset => exact absurd rfl hreset

end Sys2Proof.Machine
end

section
/-! PROOFS. The invariant of the model (spec 10_state.md sections 4, 5 and 9): every update keeps it, so every instruction and
every transaction does. -/

namespace Sys2Proof.Machine

/-! ### One lemma per update of the state -/

namespace State.Inv

variable {s : State}

theorem setV (h : s.Inv) (r : Reg) (b : Byte) : (s.setV r b).Inv := h.congr rfl rfl h.pc_lt rfl rfl rfl

theorem setResultFlag (h : s.Inv) (x : Reg) (b : Byte) (f : Bool) : (s.setResultFlag x b f).Inv :=
  (h.setV x b).setV vf (flagByte f)

theorem setRegs (h : s.Inv) (w : Vector Byte 16) : (s.setRegs w).Inv := h.congr rfl rfl h.pc_lt rfl rfl rfl

theorem setI (h : s.Inv) (a : Addr) : (s.setI a).Inv := h.congr rfl rfl h.pc_lt rfl rfl rfl

theorem setDt (h : s.Inv) (b : Byte) : (s.setDt b).Inv := h.congr rfl rfl h.pc_lt rfl rfl rfl

theorem setSt (h : s.Inv) (b : Byte) : (s.setSt b).Inv := h.congr rfl rfl h.pc_lt rfl rfl rfl

theorem setFb (h : s.Inv) (fb : Framebuffer) : (s.setFb fb).Inv := h.congr rfl rfl h.pc_lt rfl rfl rfl

theorem setReport (h : s.Inv) (r : Option Report) : (s.setReport r).Inv := h.congr rfl rfl h.pc_lt rfl rfl rfl

theorem present (h : s.Inv) (inp : Inputs) : (s.present inp).Inv := h.congr rfl rfl h.pc_lt rfl rfl rfl

/-- The target of a write to `pc` is reduced mod 4096 (R23), so the old `pc` does not matter. -/
theorem setPc (h : s.Inv) (n : Nat) : (s.setPc n).Inv :=
  h.congr rfl rfl (by rw [State.toNat_pc_setPc]; omega) rfl rfl rfl

theorem skipIf (h : s.Inv) (c : Bool) : (s.skipIf c).Inv := by
  cases c
  · exact h
  · exact h.setPc _

/-- A pop leaves the slots (R25). -/
theorem pop (h : s.Inv) (p : Fin 17) : (s.setStack p s.stack).Inv := h.congr rfl rfl h.pc_lt rfl rfl rfl

/-- A push of a 12-bit address leaves 12-bit addresses in the slots (R25). -/
theorem push (h : s.Inv) (p : Fin 17) (j : Fin 16) {w : Word} (hw : w.toNat < 4096) :
    (s.setStack p (s.stack.set j.val w)).Inv where
  params_wf := h.params_wf
  mem_wf := h.mem_wf
  pc_lt := h.pc_lt
  slot_lt k := by
    rw [stack_setStack, Vector.getElem_set]
    split
    · exact hw
    · exact h.slot_lt k
  halted_iff := h.halted_iff

theorem memWriteList (h : s.Inv) (a : Nat) (bs : List Byte) : (s.memWriteList a bs).Inv where
  params_wf := by rw [params_memWriteList]; exact h.params_wf
  mem_wf := by rw [params_memWriteList]; exact wf_memWriteList bs s a h.mem_wf
  pc_lt := by rw [pc_memWriteList]; exact h.pc_lt
  slot_lt := by rw [stack_memWriteList]; exact h.slot_lt
  halted_iff := by rw [mode_memWriteList, fault_memWriteList]; exact h.halted_iff

/-- Outside `HALTED` no fault is recorded, so the mode may become any other than `HALTED` (R31). -/
theorem setMode (h : s.Inv) (hm : s.mode ≠ .halted) {m : Mode} (hm' : m ≠ .halted) : (s.setMode m).Inv where
  params_wf := h.params_wf
  mem_wf := h.mem_wf
  pc_lt := h.pc_lt
  slot_lt := h.slot_lt
  halted_iff := iff_of_false hm' (mt h.halted_iff.mpr hm)

/-- A fatal condition halts and is recorded (R208). -/
theorem raiseFatal (h : s.Inv) (k : FatalKind) (w : Word) : (s.raiseFatal k w).Inv where
  params_wf := h.params_wf
  mem_wf := h.mem_wf
  pc_lt := h.pc_lt
  slot_lt := h.slot_lt
  halted_iff := iff_of_true rfl (Option.some_ne_none _)

theorem take (h : s.Inv) {s₁ : State} {tr : Transaction} (htake : s.takeTransaction = (tr, s₁)) : s₁.Inv := by
  rw [take_core htake]
  exact h.congr rfl rfl h.pc_lt rfl rfl rfl

end State.Inv

/-! ### Every instruction -/

theorem inv_exec_ret {s : State} (h : s.Inv) : ∃ t, exec .ret s = .next t ∧ t.Inv := by
  obtain hsp | ⟨j, hsp⟩ := s.sp_eq_zero_or_succ
  · exact ⟨_, exec_ret_of_empty hsp, h.raiseFatal _ _⟩
  · exact ⟨_, exec_ret_of_succ hsp, (h.pop _).setPc _⟩

theorem inv_exec_call {s : State} (h : s.Inv) (nnn : Addr) : ∃ t, exec (.call nnn) s = .next t ∧ t.Inv := by
  obtain hsp | ⟨j, hsp⟩ := s.sp_eq_full_or_slot
  · exact ⟨_, exec_call_of_full nnn hsp, h.raiseFatal _ _⟩
  · exact ⟨_, exec_call_of_slot nnn hsp, (h.push _ j h.pc_lt).setPc _⟩

/-- In `RUNNING`, the mode in which instructions are executed (R90), each keeps the invariant. -/
theorem inv_exec {s : State} (h : s.Inv) (hm : s.mode = .running) : ∀ i : Instr, ∃ t, exec i s = .next t ∧ t.Inv
  | .cls => ⟨_, exec_cls s, h.setFb _⟩
  | .ret => inv_exec_ret h
  | .jp nnn => ⟨_, exec_jp nnn s, h.setPc _⟩
  | .call nnn => inv_exec_call h nnn
  | .seImm x kk => ⟨_, exec_seImm x kk s, h.skipIf _⟩
  | .sneImm x kk => ⟨_, exec_sneImm x kk s, h.skipIf _⟩
  | .seReg x y => ⟨_, exec_seReg x y s, h.skipIf _⟩
  | .ldImm x kk => ⟨_, exec_ldImm x kk s, h.setV _ _⟩
  | .addImm x kk => ⟨_, exec_addImm x kk s, h.setV _ _⟩
  | .ldReg x y => ⟨_, exec_ldReg x y s, h.setV _ _⟩
  | .or x y => ⟨_, exec_or x y s, h.setV _ _⟩
  | .and x y => ⟨_, exec_and x y s, h.setV _ _⟩
  | .xor x y => ⟨_, exec_xor x y s, h.setV _ _⟩
  | .addReg x y => ⟨_, exec_addReg x y s, h.setResultFlag _ _ _⟩
  | .sub x y => ⟨_, exec_sub x y s, h.setResultFlag _ _ _⟩
  | .shr x y => ⟨_, exec_shr x y s, h.setResultFlag _ _ _⟩
  | .subn x y => ⟨_, exec_subn x y s, h.setResultFlag _ _ _⟩
  | .shl x y => ⟨_, exec_shl x y s, h.setResultFlag _ _ _⟩
  | .sneReg x y => ⟨_, exec_sneReg x y s, h.skipIf _⟩
  | .ldI nnn => ⟨_, exec_ldI nnn s, h.setI _⟩
  | .jpV0 nnn => ⟨_, exec_jpV0 nnn s, h.setPc _⟩
  | .rnd x kk => ⟨_, exec_rnd x kk s, h.setV _ _⟩
  | .drw x y n => ⟨_, exec_drw x y n s, (h.setFb _).setV _ _⟩
  | .skp x => ⟨_, exec_skp x s, h.skipIf _⟩
  | .sknp x => ⟨_, exec_sknp x s, h.skipIf _⟩
  | .ldVxDt x => ⟨_, exec_ldVxDt x s, h.setV _ _⟩
  | .ldVxK x => ⟨_, exec_ldVxK x s, h.setMode (by simp [hm]) (by simp)⟩
  | .ldDtVx x => ⟨_, exec_ldDtVx x s, h.setDt _⟩
  | .ldStVx x => ⟨_, exec_ldStVx x s, h.setSt _⟩
  | .addIVx x => ⟨_, exec_addIVx x s, h.setI _⟩
  | .ldFVx x => ⟨_, exec_ldFVx x s, h.setI _⟩
  | .ldBVx x => ⟨_, exec_ldBVx x s, h.memWriteList _ _⟩
  | .ldMemVx x => ⟨_, exec_ldMemVx x s, h.memWriteList _ _⟩
  | .ldVxMem x => ⟨_, exec_ldVxMem x s, h.setRegs _⟩

/-! ### Every transaction -/

theorem inv_waitStep {s : State} (h : s.Inv) {r : Reg} (hm : s.mode = .waitKey r) : (s.waitStep r).Inv := by
  cases hk : s.inputs.keyPress with
  | none => rw [s.waitStep_none hk]; exact h
  | some k => rw [s.waitStep_some hk]; exact (h.setV r _).setMode (by simp [hm]) (by simp)

theorem inv_step {s s₁ t : State} {inp : Inputs} (h : s.Inv) (htake : s.takeTransaction = (.step inp, s₁))
    (ht : step s = .next t) : t.Inv := by
  have h₁ : (s₁.present inp).Inv := (h.take htake).present inp
  have hmode : (s₁.present inp).mode = s.mode := (s₁.mode_present inp).trans (take_mode htake)
  obtain ⟨-, rfl⟩ | ⟨r, hm, rfl⟩ | ⟨hm, i, -, hexec⟩ | ⟨-, rfl⟩ := step_cases htake ht
  · exact h₁
  · exact inv_waitStep h₁ (hmode.trans hm)
  · exact of_exec_next (inv_exec (h₁.setPc _) (hmode.trans hm) i) hexec
  · exact (h₁.setPc _).setReport _

theorem inv_load {s : State} (h : s.Inv) (image : List Byte) : (s.load image).Inv := by
  by_cases hfits : imageWellFormed image = true
  · rw [load_of_fits hfits]
    exact (h.memWriteList _ _).setReport _
  · rw [load_of_too_large hfits]
    exact h.setReport _

/-- The reset values meet the invariant with any admissible parameters. -/
theorem inv_resetCore {s : State} (h : s.params.wellFormed = true) : s.resetCore.Inv where
  params_wf := h
  mem_wf := Memory.wf_nil _
  pc_lt := (by decide : (0x200 : Word).toNat < 4096)
  slot_lt j := by
    show (State.reset.stack[j.val]).toNat < 4096
    rw [stack_reset]
    decide
  halted_iff := iff_of_false (nofun : Mode.running ≠ .halted) fun hne => hne rfl

/-! ### The statements -/

/-- Settles O23: the reset state is what `Reset` leaves with the default parameters. -/
theorem resetStateMeetsInvariant : Obligations.ResetStateMeetsInvariant :=
  (inv_resetCore (s := State.reset) (by decide)).congr rfl rfl (by decide) rfl rfl rfl

/-- Settles O24: the invariant is kept by each instruction and each of the four transactions. -/
theorem everyStepKeepsInvariant : Obligations.EveryStepKeepsInvariant := by
  intro s t h ht
  obtain ⟨tr, s₁, htake⟩ : ∃ tr s₁, s.takeTransaction = (tr, s₁) := ⟨_, _, rfl⟩
  have h₁ := h.take htake
  cases tr with
  | step inp => exact inv_step h htake ht
  | tick =>
    obtain rfl := Host.Outcome.next.inj ((step_tick htake).symm.trans ht)
    exact ((h₁.setDt _).setSt _).setReport _
  | load image =>
    obtain rfl := Host.Outcome.next.inj ((step_load htake).symm.trans ht)
    exact inv_load h₁ image
  | reset =>
    obtain rfl := Host.Outcome.next.inj ((step_reset htake).symm.trans ht)
    exact inv_resetCore h₁.params_wf

end Sys2Proof.Machine
end

section
/-! PROOFS. Return, call and the indexed jump (spec 41_control_flow.md), with the two fatal conditions (spec
60_exceptions.md R208). -/

namespace Sys2Proof.Machine

/-! ### Taking a fatal condition in a `Step` (R208) -/

theorem raiseFatal_advance_present {s s₁ : State} {inp : Inputs} (h : s.takeTransaction = (.step inp, s₁))
    (kind : FatalKind) (w : Word) : (s₁.present inp).advance.raiseFatal kind w = { s₁ with
      inputs := inp, report := none, pc := BitVec.ofNat 16 ((s.pc.toNat + 2) % 4096), mode := .halted
      fault := some { kind := kind, opcode := w, addr := BitVec.ofNat 12 s.pc.toNat } } := by
  rw [State.raiseFatal, instrAddr_advance_present h, advance_present h]

theorem sp_advance_present {s s₁ : State} {inp : Inputs} (h : s.takeTransaction = (.step inp, s₁)) :
    (s₁.present inp).advance.sp = s.sp := by
  rw [advance_present h, ← take_sp h]

/-! ### Calls one after the other -/

theorem execAll_cons {i : Instr} {s t : State} (h : exec i s = .next t) (is : List Instr) :
    execAll (i :: is) s = execAll is t := by
  simp only [execAll, h]

/-- A call with a free slot moves `sp` up by one and raises no fault (R112). -/
theorem exec_call_of_lt {s : State} (nnn : Addr) (h : s.sp.val < 16) :
    ∃ u, exec (.call nnn) s = .next u ∧ u.sp.val = s.sp.val + 1 ∧ u.mode = s.mode ∧ u.fault = s.fault :=
  ⟨_, exec_call_of_slot nnn (j := ⟨s.sp.val, h⟩) rfl, rfl, rfl, rfl⟩

/-- As many calls as the stack has free slots succeed: `sp` counts them, and no fault is raised. -/
theorem execAll_calls (targets : List Addr) : ∀ s : State, s.sp.val + targets.length ≤ 16 →
    ∃ t, execAll (targets.map .call) s = .next t ∧ t.sp.val = s.sp.val + targets.length ∧ t.mode = s.mode ∧
      t.fault = s.fault := by
  induction targets with
  | nil => intro s _; exact ⟨s, rfl, rfl, rfl, rfl⟩
  | cons nnn targets ih =>
    intro s hfree
    rw [List.length_cons] at hfree
    obtain ⟨u, hcall, husp, humode, hufault⟩ := exec_call_of_lt nnn (show s.sp.val < 16 by omega)
    obtain ⟨t, hrun, hsp, hmode, hfault⟩ := ih u (by omega)
    exact ⟨t, (execAll_cons hcall _).trans hrun, by rw [hsp, husp, List.length_cons]; omega, hmode.trans humode,
      hfault.trans hufault⟩

/-- A 12-bit value survives the reduction of a write to `pc` (R23). -/
theorem setPc_of_toNat_lt {w : Word} (h : w.toNat < 4096) (s : State) : (s.setPc w.toNat).pc = w := by
  apply BitVec.eq_of_toNat_eq
  rw [State.toNat_pc_setPc, Nat.mod_eq_of_lt h]

/-! ### The statements -/

/-- Settles O26: the pop reads the slot below `sp` and writes no slot. -/
theorem returnPopsTheStack : Obligations.ReturnPopsTheStack := by
  refine ⟨Laws.RoundTrip.ret.1, fun s j hj => ⟨_, exec_ret_of_succ hj, rfl, State.toNat_pc_setPc _ _, ?_⟩⟩
  exact ((OnlyChanges.pop s _).of_eq (.inl rfl)).trans ((OnlyChanges.setPc _ _).of_eq (.inr rfl))

/-- Settles O27: the return of a `Step` finds the empty stack and raises the condition. -/
theorem returnOnEmptyStackHalts : Obligations.ReturnOnEmptyStackHalts := by
  intro s s₁ inp htake hm hword hsp
  have hd : decodeWord s.fetchWord = .ok .ret := (congrArg decodeWord hword).trans Laws.RoundTrip.ret.1
  have hempty : (s₁.present inp).advance.sp.val = 0 := by rw [sp_advance_present htake, hsp]; rfl
  rw [step_of_decode htake hm hd, exec_ret_of_empty hempty, raiseFatal_advance_present htake]

/-- Settles O29: the slot at `sp` gets the advanced `pc`, and the target is below 4096. -/
theorem callPushesAndJumps : Obligations.CallPushesAndJumps := by
  intro s nnn j hj
  refine ⟨(Laws.RoundTrip.call nnn).1, _, exec_call_of_slot nnn hj, ?_, ?_, ?_, ?_⟩
  · rw [State.stack_setPc, State.stack_setStack, Vector.getElem_set_self]
  · rw [State.sp_setPc, State.sp_setStack, Fin.val_succ]
  · rw [State.toNat_pc_setPc, Nat.mod_eq_of_lt nnn.isLt]
  · exact ((OnlyChanges.push_slot s _ s.pc hj).mono fun _ he => he.imp_right .inl).trans
      ((OnlyChanges.setPc _ _).of_eq (.inr (.inr rfl)))

/-- Settles O30: the recorded opcode is the fetched word, since a decoded word is the encoding of its instruction. -/
theorem callOnFullStackHalts : Obligations.CallOnFullStackHalts := by
  rintro s s₁ inp w nnn htake hm rfl hd hsp
  have hfull : (s₁.present inp).advance.sp.val = 16 := by rw [sp_advance_present htake, hsp]
  rw [step_of_decode htake hm hd, exec_call_of_full nnn hfull, raiseFatal_advance_present htake, encode_of_decodeWord hd]

/-- Settles O34: the register added is number 0. -/
theorem indexedJumpAddsV0 : Obligations.IndexedJumpAddsV0 :=
  fun s nnn => ⟨_, exec_jpV0 nnn s, State.toNat_pc_setPc s _, OnlyChanges.setPc s _⟩

/-- Settles O31: the slot that the call writes is the one that the return reads; 16 calls fill the stack. -/
theorem callAndReturnLaws : Obligations.CallAndReturnLaws := by
  refine ⟨fun s t u nnn hpc hsp ht husp hustack => ?roundTrip, fun s targets hsp hlen => ?sixteen, fun s hsp => ?empty⟩
  case roundTrip =>
    have hslot : s.sp.val = (⟨s.sp.val, hsp⟩ : Fin 16).val := rfl
    obtain rfl := Host.Outcome.next.inj ((exec_call_of_slot nnn hslot).symm.trans ht)
    have hret := exec_ret_of_succ (s := u) (j := ⟨s.sp.val, hsp⟩) (by rw [husp]; rfl)
    have hpopped : u.stack[s.sp.val] = s.pc := by
      simp only [hustack, State.stack_setPc, State.stack_setStack, Vector.getElem_set_self]
    refine ⟨_, hret, ?_, rfl⟩
    simp only [hpopped, setPc_of_toNat_lt hpc]
  case sixteen =>
    have hzero : s.sp.val = 0 := congrArg Fin.val hsp
    obtain ⟨t, hrun, htsp, hmode, hfault⟩ := execAll_calls targets s (by omega)
    refine ⟨t, hrun, by omega, hmode, hfault, fun nnn => ?_⟩
    exact ⟨_, exec_call_of_full nnn (by omega), rfl, rfl, rfl, rfl, rfl⟩
  case empty => exact ⟨_, exec_ret_of_empty (congrArg Fin.val hsp), rfl, rfl⟩

end Sys2Proof.Machine
end

section
/-! PROOFS. Logic, arithmetic with flags, shifts and random (spec 42_alu.md). -/

namespace Sys2Proof.Machine

/-! ### The flags as numbers (R21, R136 to R142) -/

theorem toNat_flagByte (c : Bool) : (flagByte c).toNat = if c = true then 1 else 0 := by cases c <;> rfl

theorem toNat_carryFlag (a b : Byte) :
    (flagByte (carryFlag a b)).toNat = if a.toNat + b.toNat > 255 then 1 else 0 := by
  simp only [toNat_flagByte, carryFlag, decide_eq_true_eq]

theorem toNat_greaterFlag (a b : Byte) : (flagByte (greaterFlag a b)).toNat = if a.toNat > b.toNat then 1 else 0 := by
  simp only [toNat_flagByte, greaterFlag, decide_eq_true_eq]

theorem toNat_lowBitFlag (a : Byte) : (flagByte (lowBitFlag a)).toNat = a.toNat % 2 := by
  rw [toNat_flagByte, lowBitFlag, BitVec.getLsbD, Nat.testBit_zero]
  simp only [decide_eq_true_eq]
  split <;> omega

theorem toNat_highBitFlag (a : Byte) : (flagByte (highBitFlag a)).toNat = a.toNat / 128 := by
  have hbit : highBitFlag a = decide (a.toNat ≥ 128) := BitVec.msb_eq_decide a
  have := a.isLt
  rw [toNat_flagByte, hbit]
  simp only [decide_eq_true_eq]
  split <;> omega

/-! ### The result and the flag (R143) -/

/-- The effect of a result written to `Vx` and then a flag to VF, for a result and a flag given as numbers: the flag is what
stays when `x` is 15. -/
theorem setResultFlag_effect (s : State) (x : Reg) {b : Byte} {c : Bool} {result flag : Nat} (hb : b.toNat = result)
    (hc : (flagByte c).toNat = flag) :
    (x ≠ 15 → ((s.setResultFlag x b c).getV x).toNat = result) ∧ ((s.setResultFlag x b c).getV 15).toNat = flag ∧
      OnlyChanges s (s.setResultFlag x b c) (fun e => e = .reg x ∨ e = .reg 15) := by
  refine ⟨fun hx => ?_, ?_, OnlyChanges.setResultFlag s x b c⟩
  · rw [State.getV_setResultFlag, if_neg (show vf ≠ x from hx.symm), if_pos rfl, hb]
  · rw [State.getV_setResultFlag, if_pos (show vf = 15 from rfl), hc]

/-- Subtraction of bytes wraps at 256. -/
theorem toNat_byte_sub (a b : Byte) : (a - b).toNat = (a.toNat + 256 - b.toNat) % 256 := by
  have := b.isLt
  rw [BitVec.toNat_sub]
  omega

theorem toNat_byte_shr (a : Byte) : (a >>> 1).toNat = a.toNat / 2 := by
  rw [BitVec.toNat_ushiftRight, Nat.shiftRight_eq_div_pow]

theorem toNat_byte_shl (a : Byte) : (a <<< 1).toNat = 2 * a.toNat % 256 := by
  rw [BitVec.toNat_shiftLeft, Nat.shiftLeft_eq, Nat.mul_comm]

/-! ### The statements -/

/-- Settles O38: the operations on bytes are those on their bits. -/
theorem logicOperations : Obligations.LogicOperations := by
  intro s x y
  refine ⟨⟨_, exec_or x y s, OnlyChanges.setV s x _, fun b _ => ?_⟩,
    ⟨_, exec_and x y s, OnlyChanges.setV s x _, fun b _ => ?_⟩,
    ⟨_, exec_xor x y s, OnlyChanges.setV s x _, fun b _ => ?_⟩⟩
  · rw [State.getV_setV_self, BitVec.getLsbD_or]
  · rw [State.getV_setV_self, BitVec.getLsbD_and]
  · rw [State.getV_setV_self, BitVec.getLsbD_xor]

/-- Settles O39: the sum of two bytes wraps at 256, and the carry says that it did. -/
theorem addRegistersSetsCarry : Obligations.AddRegistersSetsCarry :=
  fun s x y => ⟨_, exec_addReg x y s, setResultFlag_effect s x (BitVec.toNat_add _ _) (toNat_carryFlag _ _)⟩

/-- Settles O40: the two subtractions are one, with the operands exchanged. -/
theorem subtractionsSetGreaterFlag : Obligations.SubtractionsSetGreaterFlag :=
  fun s x y => ⟨⟨_, exec_sub x y s, setResultFlag_effect s x (toNat_byte_sub _ _) (toNat_greaterFlag _ _)⟩,
    ⟨_, exec_subn x y s, setResultFlag_effect s x (toNat_byte_sub _ _) (toNat_greaterFlag _ _)⟩⟩

/-- Settles O41: `y` does not occur in what the shifts do; the bit lost is the remainder, or the quotient by 128. -/
theorem shiftsSetLostBit : Obligations.ShiftsSetLostBit :=
  fun s x => ⟨⟨_, fun y => exec_shr x y s, setResultFlag_effect s x (toNat_byte_shr _) (toNat_lowBitFlag _)⟩,
    ⟨_, fun y => exec_shl x y s, setResultFlag_effect s x (toNat_byte_shl _) (toNat_highBitFlag _)⟩⟩

/-- Settles O42: the input is masked bit by bit. -/
theorem randomIsMasked : Obligations.RandomIsMasked := by
  intro s x kk
  refine ⟨_, exec_rnd x kk s, fun b _ => ?_, OnlyChanges.setV s x _⟩
  rw [State.getV_setV_self, BitVec.getLsbD_and]

end Sys2Proof.Machine
end

section
/-! PROOFS. The keypad and the sound timer (spec 45_timers_keypad.md). -/

namespace Sys2Proof.Machine

/-- The sound output is on exactly when the sound timer is not 0 (R192). -/
theorem State.soundOn_iff (s : State) : s.soundOn = true ↔ s.st ≠ 0x00 := bne_iff_ne

/-! ### The statements -/

/-- Settles O53: both instructions are one conditional skip, on the level of the key and on its negation. -/
theorem keypadSkips : Obligations.KeypadSkips := by
  intro s x
  refine ⟨⟨_, exec_skp x s, ?_⟩, ⟨_, exec_sknp x s, ?_⟩⟩
  · exact s.skipIf_effect id id
  · exact s.skipIf_effect (congrArg (!·)) (congrArg (!·))

/-- Settles O54: the mode alone is written, with the register latched in it. -/
theorem waitForKeyEntersWait : Obligations.WaitForKeyEntersWait :=
  fun s x => ⟨(Laws.RoundTrip.ldVxK x).1, _, exec_ldVxK x s, s.mode_setMode _, OnlyChanges.setMode s _⟩

/-- Settles O57: the sound output follows the timer, which alone is written. -/
theorem setSoundTimer : Obligations.SetSoundTimer := by
  intro s x
  refine ⟨(Laws.RoundTrip.ldStVx x).1, _, exec_ldStVx x s, s.st_setSt _, ?_, OnlyChanges.setSt s _⟩
  rw [State.soundOn_iff, State.st_setSt]

end Sys2Proof.Machine
end
